-- ==== Sys2Proof/Word.lean ====
section
/-! DEFINITION. The word types of the machine (spec/00_scope.md R4, R7, R9). -/

namespace Sys2Proof

/-- A register value, an address, a pc value or an instruction: 32 bits, bit 0 the least significant (R4, R7, R9). -/
abbrev Word := BitVec 32

/-- The unit of addressing (R40). -/
abbrev Byte := BitVec 8

/-- The number of a general register: a 5-bit field, every value of which names a register (R20). -/
abbrev RegIdx := BitVec 5

end Sys2Proof
end

