-- ==== Sys2Proof/Config.lean ====
section
/-! DEFINITION. What a launch fixes (spec/00_scope.md R5) and the one free value of the model. -/

namespace Sys2Proof

/-- The byte addresses `base`, …, `base + size - 1`. -/
structure AddrRange where
  base : Nat
  size : Nat
deriving DecidableEq, Repr

/-- The launch parameters a step depends on (R5, R42, R43, R246). No step changes them (log entry 1). -/
structure Launch where
  /-- PROG_BASE, the address of the first word of the program image (R42). -/
  progBase   : Word
  /-- PROGRAM, the words at PROG_BASE, PROG_BASE + 4, … (R42). -/
  program    : List Word
  /-- END_PC, the pc at which the run is over (R246). -/
  endPc      : Word
  /-- The addresses offered as data memory; DATA_REGION is these less the program image (R43, log entry 6). -/
  dataRanges : List AddrRange
deriving DecidableEq, Repr

/-- The default END_PC of R5: the address just past the last word of the image. -/
def Config.defaultEndPc (progBase : Word) (program : List Word) : Word :=
  progBase + BitVec.ofNat 32 (4 * program.length)

/-- RESET_PC at `State.reset`: the default R34 suggests. DESIGN CHOICE, unsafe (log entry 2). -/
def Config.resetPc : Word := 0x00000000#32

/-- The whole data address space (R40). -/
def Config.allAddresses : AddrRange := ⟨0, 2 ^ 32⟩

/-- The launch `State.reset` stands in: no program, the other parameters at the defaults of R5, and every address
offered as data. DESIGN CHOICE, unsafe (log entry 5). -/
def Config.resetLaunch : Launch :=
  { progBase := Config.resetPc, program := [], endPc := Config.defaultEndPc Config.resetPc [],
    dataRanges := [Config.allAddresses] }

/-- What a data byte holds when neither INIT_MEM nor a store has given it a value: unspecified, arbitrary but fixed
(R37, R242). A free value: nothing in Lean can evaluate it. Safe (log entry 4). -/
opaque Config.unwrittenByte (addr : Nat) : Byte

end Sys2Proof
end

