-- ==== Sys2Proof/WellFormed.lean ====
section
/-! DEFINITION. Which instructions have a word (spec/30_encoding.md R85: an immediate that does not meet its format's
requirement cannot be encoded), and which launches a claim is about (spec/70_reset_and_hazards.md R241). -/

namespace Sys2Proof

/-- R85, I and S: `v == sext_12(v[11:0])`. -/
def immFitsI (v : Word) : Bool := v == (v.extractLsb' 0 12).signExtend 32

/-- R85, B: `v[0] == 0` and `v == sext_13(v[12:0])`. -/
def immFitsB (v : Word) : Bool := !v.getLsbD 0 && v == (v.extractLsb' 0 13).signExtend 32

/-- R85, U: `v[11:0] == 0`. -/
def immFitsU (v : Word) : Bool := v.extractLsb' 0 12 == 0#12

/-- R85, J: `v[0] == 0` and `v == sext_21(v[20:0])`. -/
def immFitsJ (v : Word) : Bool := !v.getLsbD 0 && v == (v.extractLsb' 0 21).signExtend 32

/-- An instruction is well formed when its immediate is one its format can encode (R85, R96). -/
def Instr.wf : Instr → Bool
  | .add .. | .sub .. | .sll .. | .slt .. | .sltu .. => true
  | .xor .. | .srl .. | .sra .. | .or .. | .and .. => true
  | .slli .. | .srli .. | .srai .. => true
  | .addi _ _ v | .slti _ _ v | .sltiu _ _ v | .xori _ _ v | .ori _ _ v | .andi _ _ v => immFitsI v
  | .lb _ _ v | .lh _ _ v | .lw _ _ v | .lbu _ _ v | .lhu _ _ v | .jalr _ _ v => immFitsI v
  | .sb _ _ v | .sh _ _ v | .sw _ _ v => immFitsI v
  | .beq _ _ v | .bne _ _ v | .blt _ _ v | .bge _ _ v | .bltu _ _ v | .bgeu _ _ v => immFitsB v
  | .lui _ v | .auipc _ v => immFitsU v
  | .jal _ v => immFitsJ v

/-- R241: PROG_BASE and END_PC are multiples of 4 and the program image does not wrap. (That DATA_REGION and the image
are disjoint holds of every launch here, log entry 6; the conditions on RESET_PC and INIT_MEM are on the initial state,
`Sys2Proof.Machine.State.Inv`.) -/
def Launch.wf (l : Launch) : Bool :=
  l.progBase.toNat % 4 == 0 && l.endPc.toNat % 4 == 0 && decide (l.progBase.toNat + 4 * l.program.length ≤ 2 ^ 32)

end Sys2Proof
end

