-- ==== Sys2Proof/Decode.lean ====
section
/-! DEFINITION. Decoding and encoding (spec/30_encoding.md). The decoder is the table of R88 searched as R86 says; the
encoder is written from the format layouts R72 to R78 and the opcode, funct3 and funct7 columns of R88. -/

namespace Sys2Proof

/-! ## Fields (R71) and immediates (R80 to R84) -/

def rdOf (w : Word) : RegIdx := w.extractLsb' 7 5
def rs1Of (w : Word) : RegIdx := w.extractLsb' 15 5
def rs2Of (w : Word) : RegIdx := w.extractLsb' 20 5

/-- R78: the shift amount of SLLI, SRLI and SRAI is `inst[24:20]`. -/
def shamtOf (w : Word) : BitVec 5 := w.extractLsb' 20 5

/-- R80: `sext_12(inst[31:20])`. -/
def immI (w : Word) : Word := (w.extractLsb' 20 12).signExtend 32

/-- R81: `sext_12({inst[31:25], inst[11:7]})`. -/
def immS (w : Word) : Word := (w.extractLsb' 25 7 ++ w.extractLsb' 7 5).signExtend 32

/-- R82: `sext_13({inst[31], inst[7], inst[30:25], inst[11:8], 0})`. -/
def immB (w : Word) : Word :=
  (w.extractLsb' 31 1 ++ w.extractLsb' 7 1 ++ w.extractLsb' 25 6 ++ w.extractLsb' 8 4 ++ 0#1).signExtend 32

/-- R83: `{inst[31:12], 000000000000}`. -/
def immU (w : Word) : Word := w.extractLsb' 12 20 ++ 0#12

/-- R84: `sext_21({inst[31], inst[19:12], inst[20], inst[30:21], 0})`. -/
def immJ (w : Word) : Word :=
  (w.extractLsb' 31 1 ++ w.extractLsb' 12 8 ++ w.extractLsb' 20 1 ++ w.extractLsb' 21 10 ++ 0#1).signExtend 32

/-! ## Operands of each format (R96) -/

def readR (c : RegIdx → RegIdx → RegIdx → Instr) (w : Word) : Instr := c (rdOf w) (rs1Of w) (rs2Of w)
def readI (c : RegIdx → RegIdx → Word → Instr) (w : Word) : Instr := c (rdOf w) (rs1Of w) (immI w)
def readShift (c : RegIdx → RegIdx → BitVec 5 → Instr) (w : Word) : Instr := c (rdOf w) (rs1Of w) (shamtOf w)
def readS (c : RegIdx → RegIdx → Word → Instr) (w : Word) : Instr := c (rs1Of w) (rs2Of w) (immS w)
def readB (c : RegIdx → RegIdx → Word → Instr) (w : Word) : Instr := c (rs1Of w) (rs2Of w) (immB w)
def readU (c : RegIdx → Word → Instr) (w : Word) : Instr := c (rdOf w) (immU w)
def readJ (c : RegIdx → Word → Instr) (w : Word) : Instr := c (rdOf w) (immJ w)

/-! ## The table (R88) and the decoder (R86, R92) -/

/-- A row of R88: a word `w` is this instruction exactly when `w & mask == bits`. -/
structure OpRow where
  mnemonic : String
  bits     : Word
  mask     : Word
  read     : Word → Instr

/-- Rows under opcodes 0110011 (register-register). -/
def rowsR : List OpRow :=
  [⟨"ADD",  0x00000033#32, 0xFE00707F#32, readR .add⟩,
   ⟨"SUB",  0x40000033#32, 0xFE00707F#32, readR .sub⟩,
   ⟨"SLL",  0x00001033#32, 0xFE00707F#32, readR .sll⟩,
   ⟨"SLT",  0x00002033#32, 0xFE00707F#32, readR .slt⟩,
   ⟨"SLTU", 0x00003033#32, 0xFE00707F#32, readR .sltu⟩,
   ⟨"XOR",  0x00004033#32, 0xFE00707F#32, readR .xor⟩,
   ⟨"SRL",  0x00005033#32, 0xFE00707F#32, readR .srl⟩,
   ⟨"SRA",  0x40005033#32, 0xFE00707F#32, readR .sra⟩,
   ⟨"OR",   0x00006033#32, 0xFE00707F#32, readR .or⟩,
   ⟨"AND",  0x00007033#32, 0xFE00707F#32, readR .and⟩]

/-- Rows under opcode 0010011 (immediate arithmetic, logic and shifts). -/
def rowsImm : List OpRow :=
  [⟨"ADDI",  0x00000013#32, 0x0000707F#32, readI .addi⟩,
   ⟨"SLTI",  0x00002013#32, 0x0000707F#32, readI .slti⟩,
   ⟨"SLTIU", 0x00003013#32, 0x0000707F#32, readI .sltiu⟩,
   ⟨"XORI",  0x00004013#32, 0x0000707F#32, readI .xori⟩,
   ⟨"ORI",   0x00006013#32, 0x0000707F#32, readI .ori⟩,
   ⟨"ANDI",  0x00007013#32, 0x0000707F#32, readI .andi⟩,
   ⟨"SLLI",  0x00001013#32, 0xFE00707F#32, readShift .slli⟩,
   ⟨"SRLI",  0x00005013#32, 0xFE00707F#32, readShift .srli⟩,
   ⟨"SRAI",  0x40005013#32, 0xFE00707F#32, readShift .srai⟩]

/-- Rows under opcodes 0000011 (loads), 1100111 (JALR) and 0100011 (stores). -/
def rowsMem : List OpRow :=
  [⟨"LB",   0x00000003#32, 0x0000707F#32, readI .lb⟩,
   ⟨"LH",   0x00001003#32, 0x0000707F#32, readI .lh⟩,
   ⟨"LW",   0x00002003#32, 0x0000707F#32, readI .lw⟩,
   ⟨"LBU",  0x00004003#32, 0x0000707F#32, readI .lbu⟩,
   ⟨"LHU",  0x00005003#32, 0x0000707F#32, readI .lhu⟩,
   ⟨"JALR", 0x00000067#32, 0x0000707F#32, readI .jalr⟩,
   ⟨"SB",   0x00000023#32, 0x0000707F#32, readS .sb⟩,
   ⟨"SH",   0x00001023#32, 0x0000707F#32, readS .sh⟩,
   ⟨"SW",   0x00002023#32, 0x0000707F#32, readS .sw⟩]

/-- Rows under opcodes 1100011 (branches), 0110111 (LUI), 0010111 (AUIPC) and 1101111 (JAL). -/
def rowsFlow : List OpRow :=
  [⟨"BEQ",   0x00000063#32, 0x0000707F#32, readB .beq⟩,
   ⟨"BNE",   0x00001063#32, 0x0000707F#32, readB .bne⟩,
   ⟨"BLT",   0x00004063#32, 0x0000707F#32, readB .blt⟩,
   ⟨"BGE",   0x00005063#32, 0x0000707F#32, readB .bge⟩,
   ⟨"BLTU",  0x00006063#32, 0x0000707F#32, readB .bltu⟩,
   ⟨"BGEU",  0x00007063#32, 0x0000707F#32, readB .bgeu⟩,
   ⟨"LUI",   0x00000037#32, 0x0000007F#32, readU .lui⟩,
   ⟨"AUIPC", 0x00000017#32, 0x0000007F#32, readU .auipc⟩,
   ⟨"JAL",   0x0000006F#32, 0x0000007F#32, readJ .jal⟩]

/-- The complete listing of R88, in the order of spec/opcode_table.json. -/
def opRows : List OpRow := rowsR ++ rowsImm ++ rowsMem ++ rowsFlow

/-- Why the decoder gives no instruction. -/
inductive DecodeError where
  /-- The word matches no row (R92). The step raises IllegalInstruction with the word as info. -/
  | unlisted (w : Word)
  /-- Fewer than the four bytes of an instruction (R70) are there. No step meets it: fetch gives whole words (R42). -/
  | truncated
deriving DecidableEq, Repr

def rowMatches (w : Word) (r : OpRow) : Bool := (w &&& r.mask) == r.bits

/-- The decoder, total on the 2^32 words (R86, R92). -/
def decode (w : Word) : Except DecodeError Instr :=
  match opRows.find? (rowMatches w) with
  | some r => .ok (r.read w)
  | none   => .error (.unlisted w)

/-! ## Bytes (R45): an instruction written down as bytes is little-endian -/

/-- The four bytes of a word, the lowest address first (R44, R45). -/
def wordBytes (w : Word) : List Byte :=
  [w.extractLsb' 0 8, w.extractLsb' 8 8, w.extractLsb' 16 8, w.extractLsb' 24 8]

/-- The instruction at the head of a list of bytes, and the bytes after it. -/
def decodeBytes : List Byte → Except DecodeError (Instr × List Byte)
  | b0 :: b1 :: b2 :: b3 :: rest =>
    match decode (b3 ++ b2 ++ b1 ++ b0) with
    | .ok i    => .ok (i, rest)
    | .error e => .error e
  | _ => .error .truncated

/-- The instruction read from the low `nbits` bits of `w`, every bit above them zero, laid out as bytes (R45). -/
def decodeTableWord (nbits w : Nat) : Option Instr :=
  match decodeBytes (wordBytes (BitVec.ofNat 32 (w % 2 ^ nbits))) with
  | .ok (i, _) => some i
  | .error _   => none

/-! ## The encoder (R72 to R78, R85) -/

/-- R72 and R78: funct7, rs2 (or shamt), rs1, funct3, rd, opcode. -/
def wordR (funct7 : BitVec 7) (funct3 : BitVec 3) (opcode : BitVec 7) (rd rs1 rs2 : BitVec 5) : Word :=
  funct7 ++ rs2 ++ rs1 ++ funct3 ++ rd ++ opcode

/-- R73, R85: `inst[31:20] = v[11:0]`. -/
def wordI (funct3 : BitVec 3) (opcode : BitVec 7) (rd rs1 : RegIdx) (v : Word) : Word :=
  v.extractLsb' 0 12 ++ rs1 ++ funct3 ++ rd ++ opcode

/-- R74, R85: `inst[31:25] = v[11:5]`, `inst[11:7] = v[4:0]`. -/
def wordS (funct3 : BitVec 3) (opcode : BitVec 7) (rs1 rs2 : RegIdx) (v : Word) : Word :=
  v.extractLsb' 5 7 ++ rs2 ++ rs1 ++ funct3 ++ v.extractLsb' 0 5 ++ opcode

/-- R75, R85: `inst[31] = v[12]`, `inst[30:25] = v[10:5]`, `inst[11:8] = v[4:1]`, `inst[7] = v[11]`. -/
def wordB (funct3 : BitVec 3) (opcode : BitVec 7) (rs1 rs2 : RegIdx) (v : Word) : Word :=
  v.extractLsb' 12 1 ++ v.extractLsb' 5 6 ++ rs2 ++ rs1 ++ funct3 ++ v.extractLsb' 1 4 ++ v.extractLsb' 11 1 ++ opcode

/-- R76, R85: `inst[31:12] = v[31:12]`. -/
def wordU (opcode : BitVec 7) (rd : RegIdx) (v : Word) : Word :=
  v.extractLsb' 12 20 ++ rd ++ opcode

/-- R77, R85: `inst[31] = v[20]`, `inst[30:21] = v[10:1]`, `inst[20] = v[11]`, `inst[19:12] = v[19:12]`. -/
def wordJ (opcode : BitVec 7) (rd : RegIdx) (v : Word) : Word :=
  v.extractLsb' 20 1 ++ v.extractLsb' 1 10 ++ v.extractLsb' 11 1 ++ v.extractLsb' 12 8 ++ rd ++ opcode

/-- The word of an instruction. Of an ill-formed one it is the word of the bits R85 takes (log entry 25). -/
def encode : Instr → Word
  | .add rd a b   => wordR 0b0000000#7 0b000#3 0b0110011#7 rd a b
  | .sub rd a b   => wordR 0b0100000#7 0b000#3 0b0110011#7 rd a b
  | .sll rd a b   => wordR 0b0000000#7 0b001#3 0b0110011#7 rd a b
  | .slt rd a b   => wordR 0b0000000#7 0b010#3 0b0110011#7 rd a b
  | .sltu rd a b  => wordR 0b0000000#7 0b011#3 0b0110011#7 rd a b
  | .xor rd a b   => wordR 0b0000000#7 0b100#3 0b0110011#7 rd a b
  | .srl rd a b   => wordR 0b0000000#7 0b101#3 0b0110011#7 rd a b
  | .sra rd a b   => wordR 0b0100000#7 0b101#3 0b0110011#7 rd a b
  | .or rd a b    => wordR 0b0000000#7 0b110#3 0b0110011#7 rd a b
  | .and rd a b   => wordR 0b0000000#7 0b111#3 0b0110011#7 rd a b
  | .addi rd a v  => wordI 0b000#3 0b0010011#7 rd a v
  | .slti rd a v  => wordI 0b010#3 0b0010011#7 rd a v
  | .sltiu rd a v => wordI 0b011#3 0b0010011#7 rd a v
  | .xori rd a v  => wordI 0b100#3 0b0010011#7 rd a v
  | .ori rd a v   => wordI 0b110#3 0b0010011#7 rd a v
  | .andi rd a v  => wordI 0b111#3 0b0010011#7 rd a v
  | .slli rd a n  => wordR 0b0000000#7 0b001#3 0b0010011#7 rd a n
  | .srli rd a n  => wordR 0b0000000#7 0b101#3 0b0010011#7 rd a n
  | .srai rd a n  => wordR 0b0100000#7 0b101#3 0b0010011#7 rd a n
  | .lb rd a v    => wordI 0b000#3 0b0000011#7 rd a v
  | .lh rd a v    => wordI 0b001#3 0b0000011#7 rd a v
  | .lw rd a v    => wordI 0b010#3 0b0000011#7 rd a v
  | .lbu rd a v   => wordI 0b100#3 0b0000011#7 rd a v
  | .lhu rd a v   => wordI 0b101#3 0b0000011#7 rd a v
  | .jalr rd a v  => wordI 0b000#3 0b1100111#7 rd a v
  | .sb a b v     => wordS 0b000#3 0b0100011#7 a b v
  | .sh a b v     => wordS 0b001#3 0b0100011#7 a b v
  | .sw a b v     => wordS 0b010#3 0b0100011#7 a b v
  | .beq a b v    => wordB 0b000#3 0b1100011#7 a b v
  | .bne a b v    => wordB 0b001#3 0b1100011#7 a b v
  | .blt a b v    => wordB 0b100#3 0b1100011#7 a b v
  | .bge a b v    => wordB 0b101#3 0b1100011#7 a b v
  | .bltu a b v   => wordB 0b110#3 0b1100011#7 a b v
  | .bgeu a b v   => wordB 0b111#3 0b1100011#7 a b v
  | .lui rd v     => wordU 0b0110111#7 rd v
  | .auipc rd v   => wordU 0b0010111#7 rd v
  | .jal rd v     => wordJ 0b1101111#7 rd v

/-- The bytes of an instruction, the lowest address first (R45). -/
def encodeBytes (i : Instr) : List Byte := wordBytes (encode i)

end Sys2Proof
end

