-- ==== Sys2Proof/Machine/State.lean ====
section
/-! DEFINITION. The state of the machine (spec/10_state.md R39) and the state after reset (R34 to R38,
spec/70_reset_and_hazards.md R240). -/

namespace Sys2Proof.Machine

/-- Data memory: the bytes that INIT_MEM or a store has given a value, as (address, byte) pairs with strictly rising
addresses. An unlisted address has no value of its own (log entry 4). -/
abbrev Memory := List Host.Cell

/-- The seven fault causes (spec/60_exceptions.md R203). -/
inductive Cause where
  /-- JAL, JALR or a taken branch to a target that is not a multiple of 4 (R205). -/
  | instructionAddressMisaligned
  /-- The pc is neither END_PC nor the address of a word of the program image (R206). -/
  | instructionAccessFault
  /-- The fetched word matches no row of the opcode table (R204). -/
  | illegalInstruction
  /-- LH, LHU or LW at an address that is not a multiple of its size (R207). -/
  | loadAddressMisaligned
  /-- A load with a byte outside DATA_REGION and the program image (R209). -/
  | loadAccessFault
  /-- SH or SW at an address that is not a multiple of its size (R208). -/
  | storeAddressMisaligned
  /-- A store with a byte outside DATA_REGION and the program image (R210). -/
  | storeAccessFault
deriving DecidableEq, Repr

/-- The one reason of `refuse` (R202). -/
inductive RefuseReason where
  /-- A load or store with a byte in the program image (R58). -/
  | dataAccessToProgramImage
deriving DecidableEq, Repr

/-- The status of R33. Only `running` has a step. -/
inductive Status where
  | running
  | halted
  | faulted (cause : Cause) (info : Word)
  | refused (reason : RefuseReason)
deriving DecidableEq, Repr

/-- The state record of R39, with the launch parameters a step depends on (log entry 1). -/
structure State where
  /-- x1, …, x31 (R20); x0 is the constant 0 and has no storage (R21, R39). Entry `k` is register `k + 1`. -/
  x      : Vector Word 31
  /-- The address of the instruction about to be executed (R25, R26). -/
  pc     : Word
  /-- Data memory (R39). -/
  mem    : Memory
  status : Status
  launch : Launch
deriving DecidableEq, Repr

/-- Why a state has no step (R33: "A state whose status is Faulted, Refused or Halted has no step"). `step` raises each
of them, no instruction does. All are safe: the machine of the spec has no step there either. -/
inductive Fault where
  /-- The run is over: the pc reached END_PC (R246). Raised by `step`. Safe. -/
  | noStepHalted
  /-- The run ended in a fault (R201). Raised by `step`. Safe. -/
  | noStepFaulted (cause : Cause) (info : Word)
  /-- The run ended in a refusal (R202). Raised by `step`. Safe. -/
  | noStepRefused (reason : RefuseReason)
deriving DecidableEq, Repr

/-- What the model gives no meaning to. -/
inductive Refusal where
  /-- An instruction without a meaning yet, rejected by `exec`. No arm raises it now. Safe. -/
  | notModelled (mnemonic : String)
deriving DecidableEq, Repr

/-- The initial state of a run (R240): any register values, the pc at RESET_PC, data memory as INIT_MEM gives it, the
status `running`. -/
def State.boot (launch : Launch) (resetPc : Word) (initRegs : Vector Word 31) (initMem : Memory) : State :=
  { x := initRegs, pc := resetPc, mem := initMem, status := .running, launch := launch }

/-- The machine right after reset, with every parameter of the launch at its default: x1 to x31 zero (DESIGN CHOICE,
unsafe, log entry 3), the pc at `Config.resetPc` (entry 2), the launch `Config.resetLaunch` (entry 5), no byte of memory
written. -/
def State.reset : State :=
  State.boot Config.resetLaunch Config.resetPc (Vector.replicate 31 0#32) []

end Sys2Proof.Machine
end

