-- ==== Sys2Proof/Machine/Ops.lean ====
section
/-! DEFINITION. The operations every meaning is written over: registers (spec/10_state.md), faults and refusals
(spec/60_exceptions.md R201, R202), memory (spec/20_memory.md), fetch (R42), the pc and control transfer (R27, R48). -/

namespace Sys2Proof.Machine

/-! ## General registers (R20, R21) -/

/-- `x[r]`: register 0 reads as 0. -/
def State.readReg (s : State) (r : RegIdx) : Word :=
  if h : r = 0#5 then 0#32 else s.x[r.toNat - 1]'(by have := r.isLt; omega)

/-- `x[r] <- v`: a write to register 0 is discarded. -/
def State.writeReg (s : State) (r : RegIdx) (v : Word) : State :=
  if h : r = 0#5 then s else { s with x := s.x.set (r.toNat - 1) v (by have := r.isLt; omega) }

/-! ## Ending a run (R201, R202, R246). There is no trap entry and no return from one (R200): nothing is saved and
control goes nowhere. -/

/-- The step ends with the given status and no other change. -/
def State.stop (s : State) (st : Status) : State := { s with status := st }

/-- `raise c(info)` (R201): taking a fault. -/
def State.raise (s : State) (c : Cause) (info : Word) : State := s.stop (.faulted c info)

/-- `refuse(r)` (R202). -/
def State.refuse (s : State) (r : RefuseReason) : State := s.stop (.refused r)

/-! ## The pc (R27, R28, R48) -/

def State.setPc (s : State) (t : Word) : State := { s with pc := t }

/-- The address of the next instruction in memory, modulo 2^32 (R26, R28). -/
def State.nextPc (s : State) : Word := s.pc + 4#32

/-- An instruction that transfers no control is followed by the one at `pc + 4` (R27). -/
def State.advance (s : State) : State := s.setPc s.nextPc

/-- `target[1:0] == 0` (R46). -/
def targetAligned (t : Word) : Bool := t.extractLsb' 0 2 == 0#2

/-- Transfer control to `t`, or fault with nothing written when `t` is not a multiple of 4 (R48, R205). `linked` is the
state with the link register written. -/
def State.transfer (s linked : State) (t : Word) : State :=
  if targetAligned t then linked.setPc t else s.raise .instructionAddressMisaligned t

/-- An instruction whose one result goes to `rd`, and the pc to `pc + 4` (R27, R121, R130). -/
def State.result (s : State) (rd : RegIdx) (v : Word) : State := (s.writeReg rd v).advance

end Sys2Proof.Machine

namespace Sys2Proof

/-! ## The address map of the launch (R42, R43) -/

def AddrRange.contains (r : AddrRange) (a : Nat) : Bool := decide (r.base ≤ a) && decide (a < r.base + r.size)

/-- Is `a` a byte of the program image (R42)? -/
def Launch.inImage (l : Launch) (a : Nat) : Bool :=
  decide (l.progBase.toNat ≤ a) && decide (a < l.progBase.toNat + 4 * l.program.length)

/-- Is `a` a byte of DATA_REGION (R43)? It is disjoint from the program image (R241, log entry 6). -/
def Launch.inDataRegion (l : Launch) (a : Nat) : Bool :=
  decide (a < 2 ^ 32) && l.dataRanges.any (fun r => r.contains a) && !l.inImage a

/-- `Fetch(a)` (R42): the word of the image at `a`, if `a` is the address of one. -/
def Launch.fetch (l : Launch) (a : Word) : Option Word :=
  if l.progBase.toNat ≤ a.toNat ∧ (a.toNat - l.progBase.toNat) % 4 = 0
  then l.program[(a.toNat - l.progBase.toNat) / 4]?
  else none

/-- The launch with another program image, END_PC at its default (R5, R243). -/
def Launch.withProgram (l : Launch) (progBase : Word) (program : List Word) : Launch :=
  { l with progBase := progBase, program := program, endPc := Config.defaultEndPc progBase program }

end Sys2Proof

namespace Sys2Proof.Machine

/-! ## Data memory (R39, R40) -/

/-- The canonical form: strictly rising addresses, each in the address space. No entry can equal what an unlisted
address holds, for that is no value at all. -/
abbrev Memory.wf (m : Memory) : Prop := m.Pairwise (fun c d => c.1 < d.1) ∧ ∀ c ∈ m, c.1 < 2 ^ 32

/-- What the memory lists at an address; an unlisted address has no value. -/
def Memory.lookup : Memory → Nat → Option Byte
  | [], _ => none
  | (b, v) :: m, a => if a = b then some v else Memory.lookup m a

/-- Give one byte a value, keeping the canonical form. -/
def Memory.put : Memory → Nat → Byte → Memory
  | [], a, v => [(a, v)]
  | (b, u) :: m, a, v =>
    if a < b then (a, v) :: (b, u) :: m
    else if a = b then (a, v) :: m
    else (b, u) :: Memory.put m a v

/-- Give consecutive bytes values, the first at `a`. -/
def Memory.putBytes : Memory → Nat → List Byte → Memory
  | m, _, [] => m
  | m, a, v :: vs => Memory.putBytes (Memory.put m a v) (a + 1) vs

/-- The byte at an address: the value last given, or the unspecified, fixed value of an unwritten byte (R37, R56). -/
def State.readByte (s : State) (a : Nat) : Byte := (Memory.lookup s.mem a).getD (Config.unwrittenByte a)

/-- The access widths (R49). -/
inductive Width where
  | byte
  | half
  | word
deriving DecidableEq, Repr

@[reducible] def Width.bytes : Width → Nat
  | .byte => 1
  | .half => 2
  | .word => 4

@[reducible] def Width.bits : Width → Nat
  | .byte => 8
  | .half => 16
  | .word => 32

/-- The value of the bytes from `a` on, little-endian (R44). -/
def State.readLE (s : State) (a : Nat) : (n : Width) → BitVec n.bits
  | .byte => s.readByte a
  | .half => s.readByte (a + 1) ++ s.readByte a
  | .word => s.readByte (a + 3) ++ s.readByte (a + 2) ++ s.readByte (a + 1) ++ s.readByte a

/-- The bytes of a value, the lowest address first (R44). -/
def bytesLE : (n : Width) → BitVec n.bits → List Byte
  | .byte, v => [v]
  | .half, v => [v.extractLsb' 0 8, v.extractLsb' 8 8]
  | .word, v => [v.extractLsb' 0 8, v.extractLsb' 8 8, v.extractLsb' 16 8, v.extractLsb' 24 8]

/-- The byte addresses of an access. An aligned access never wraps (R50). -/
def accessAddrs (addr : Word) (n : Width) : List Nat := (List.range n.bytes).map (addr.toNat + ·)

/-- The checks of R50 and R51, in their order (R212): alignment (R47), the program image (R58), DATA_REGION (R43). The
answer is the status the step ends with, or none when the access is performed. -/
def State.accessCheck (s : State) (misaligned absent : Cause) (addr : Word) (n : Width) : Option Status :=
  if addr.toNat % n.bytes ≠ 0 then some (.faulted misaligned addr)
  else if (accessAddrs addr n).any s.launch.inImage then some (.refused .dataAccessToProgramImage)
  else if !(accessAddrs addr n).all s.launch.inDataRegion then some (.faulted absent addr)
  else none

/-- `MemRead(addr, n)` (R50). -/
def State.memRead (s : State) (addr : Word) (n : Width) : Except Status (BitVec n.bits) :=
  match s.accessCheck .loadAddressMisaligned .loadAccessFault addr n with
  | some st => .error st
  | none    => .ok (s.readLE addr.toNat n)

/-- `MemWrite(addr, n, v)` (R51): all bytes are written together, or none is. -/
def State.memWrite (s : State) (addr : Word) (n : Width) (v : BitVec n.bits) : Except Status State :=
  match s.accessCheck .storeAddressMisaligned .storeAccessFault addr n with
  | some st => .error st
  | none    => .ok { s with mem := Memory.putBytes s.mem addr.toNat (bytesLE n v) }

end Sys2Proof.Machine
end

