-- ==== Sys2Proof/Machine/Operands.lean ====
section
/-! DEFINITION. The operand forms: the effective address (spec/20_memory.md R41, R61), the shift amount (spec/40_rtype.md
R113), the control-transfer targets (spec/10_state.md R27), and the one shape of a load, a store and a branch. -/

namespace Sys2Proof.Machine

/-- `ea = x[rs1] + imm`, modulo 2^32 (R41, R61): the one addressing mode. -/
def State.ea (s : State) (rs1 : RegIdx) (imm : Word) : Word := s.readReg rs1 + imm

/-- The shift amount of SLL, SRL and SRA: bits 4 to 0 of the register, 0 to 31 (R113, R117, R118). -/
def shiftAmount (v : Word) : Nat := (v.extractLsb' 0 5).toNat

/-- `pc + imm` (R175, R195). -/
def State.relTarget (s : State) (imm : Word) : Word := s.pc + imm

/-- `(x[rs1] + imm_I) & 0xFFFFFFFE` (R160). -/
def State.jalrTarget (s : State) (rs1 : RegIdx) (imm : Word) : Word := (s.readReg rs1 + imm) &&& 0xFFFFFFFE#32

/-- A load (R150): read `n` bytes at the effective address, extend them to 32 bits, write `rd`. -/
def State.load (s : State) (n : Width) (extend : BitVec n.bits → Word) (rd rs1 : RegIdx) (imm : Word) : State :=
  match s.memRead (s.ea rs1 imm) n with
  | .ok v     => s.result rd (extend v)
  | .error st => s.stop st

/-- A store (R165): write the low bytes of `x[rs2]`, given as `v`, at the effective address. -/
def State.store (s : State) (n : Width) (v : BitVec n.bits) (rs1 : RegIdx) (imm : Word) : State :=
  match s.memWrite (s.ea rs1 imm) n v with
  | .ok s'    => s'.advance
  | .error st => s.stop st

/-- A branch (R175): to `pc + imm` when the condition holds, to `pc + 4` when it does not. -/
def State.branch (s : State) (taken : Bool) (imm : Word) : State :=
  if taken then s.transfer s (s.relTarget imm) else s.advance

end Sys2Proof.Machine
end

