-- ==== Sys2Proof/Machine/Flags.lean ====
section
/-! DEFINITION. The comparisons. The machine has no flags and no condition codes (spec/10_state.md R29): a branch compares
two registers itself and SLT, SLTU, SLTI and SLTIU write 0 or 1 to a register. -/

namespace Sys2Proof.Machine

/-- `a == b`, all 32 bits (R176). -/
def condEq (a b : Word) : Bool := a == b

/-- `a != b` (R177). -/
def condNe (a b : Word) : Bool := !(a == b)

/-- `a <s b`, comparison of `signed(a)` with `signed(b)` (R9, R178). -/
def condLt (a b : Word) : Bool := decide (a.toInt < b.toInt)

/-- `a >=s b` (R179). -/
def condGe (a b : Word) : Bool := decide (b.toInt ≤ a.toInt)

/-- `a <u b`, comparison of `unsigned(a)` with `unsigned(b)` (R9, R180). -/
def condLtu (a b : Word) : Bool := decide (a.toNat < b.toNat)

/-- `a >=u b` (R181). -/
def condGeu (a b : Word) : Bool := decide (b.toNat ≤ a.toNat)

/-- The full word 1 or 0 of a comparison (R114). -/
def truth (c : Bool) : Word := if c then 0x00000001#32 else 0x00000000#32

end Sys2Proof.Machine
end

