-- ==== Sys2Proof/Machine/Branches.lean ====
section
/-! DEFINITION. The conditional branches (spec/45_branches.md). There is no delay slot (R182). -/

namespace Sys2Proof.Machine

open Host (Outcome)

/-- R176. -/
def execBeq (rs1 rs2 : RegIdx) (imm : Word) (s : State) : Outcome State Fault Refusal :=
  .next (s.branch (condEq (s.readReg rs1) (s.readReg rs2)) imm)

/-- R177. -/
def execBne (rs1 rs2 : RegIdx) (imm : Word) (s : State) : Outcome State Fault Refusal :=
  .next (s.branch (condNe (s.readReg rs1) (s.readReg rs2)) imm)

/-- R178, signed. -/
def execBlt (rs1 rs2 : RegIdx) (imm : Word) (s : State) : Outcome State Fault Refusal :=
  .next (s.branch (condLt (s.readReg rs1) (s.readReg rs2)) imm)

/-- R179, signed. -/
def execBge (rs1 rs2 : RegIdx) (imm : Word) (s : State) : Outcome State Fault Refusal :=
  .next (s.branch (condGe (s.readReg rs1) (s.readReg rs2)) imm)

/-- R180, unsigned. -/
def execBltu (rs1 rs2 : RegIdx) (imm : Word) (s : State) : Outcome State Fault Refusal :=
  .next (s.branch (condLtu (s.readReg rs1) (s.readReg rs2)) imm)

/-- R181, unsigned. -/
def execBgeu (rs1 rs2 : RegIdx) (imm : Word) (s : State) : Outcome State Fault Refusal :=
  .next (s.branch (condGeu (s.readReg rs1) (s.readReg rs2)) imm)

end Sys2Proof.Machine
end

