-- ==== Sys2Proof/Machine/ImmAlu.lean ====
section
/-! DEFINITION. The immediate arithmetic, logic and shift instructions (spec/41_itype_alu.md). -/

namespace Sys2Proof.Machine

open Host (Outcome)

/-- R131: `x[rd] <- x[rs1] + imm_I`, modulo 2^32. -/
def execAddi (rd rs1 : RegIdx) (imm : Word) (s : State) : Outcome State Fault Refusal :=
  .next (s.result rd (s.readReg rs1 + imm))

/-- R132: 1 when `x[rs1] <s imm_I`, else 0. -/
def execSlti (rd rs1 : RegIdx) (imm : Word) (s : State) : Outcome State Fault Refusal :=
  .next (s.result rd (truth (condLt (s.readReg rs1) imm)))

/-- R133: 1 when `x[rs1] <u imm_I`, else 0; `imm_I` is sign-extended (C3, log entry 13). -/
def execSltiu (rd rs1 : RegIdx) (imm : Word) (s : State) : Outcome State Fault Refusal :=
  .next (s.result rd (truth (condLtu (s.readReg rs1) imm)))

/-- R134: `x[rd] <- x[rs1] ^ imm_I`. -/
def execXori (rd rs1 : RegIdx) (imm : Word) (s : State) : Outcome State Fault Refusal :=
  .next (s.result rd (s.readReg rs1 ^^^ imm))

/-- R135: `x[rd] <- x[rs1] | imm_I`. -/
def execOri (rd rs1 : RegIdx) (imm : Word) (s : State) : Outcome State Fault Refusal :=
  .next (s.result rd (s.readReg rs1 ||| imm))

/-- R136: `x[rd] <- x[rs1] & imm_I`. -/
def execAndi (rd rs1 : RegIdx) (imm : Word) (s : State) : Outcome State Fault Refusal :=
  .next (s.result rd (s.readReg rs1 &&& imm))

/-- R138: `x[rd] <- x[rs1] << shamt`. -/
def execSlli (rd rs1 : RegIdx) (shamt : BitVec 5) (s : State) : Outcome State Fault Refusal :=
  .next (s.result rd (s.readReg rs1 <<< shamt.toNat))

/-- R139: `x[rd] <- x[rs1] >>u shamt`. -/
def execSrli (rd rs1 : RegIdx) (shamt : BitVec 5) (s : State) : Outcome State Fault Refusal :=
  .next (s.result rd (s.readReg rs1 >>> shamt.toNat))

/-- R140: `x[rd] <- x[rs1] >>s shamt`. -/
def execSrai (rd rs1 : RegIdx) (shamt : BitVec 5) (s : State) : Outcome State Fault Refusal :=
  .next (s.result rd ((s.readReg rs1).sshiftRight shamt.toNat))

end Sys2Proof.Machine
end

