-- ==== Sys2Proof/Machine/Jumps.lean ====
section
/-! DEFINITION. The jumps: JALR (spec/43_jalr.md) and JAL (spec/47_jal.md). Operands are read before the link is written (R11, C5). -/

namespace Sys2Proof.Machine

open Host (Outcome)

/-- R160: to `(x[rs1] + imm_I) & 0xFFFFFFFE`, `x[rd] <- pc + 4`. -/
def execJalr (rd rs1 : RegIdx) (imm : Word) (s : State) : Outcome State Fault Refusal :=
  .next (s.transfer (s.writeReg rd s.nextPc) (s.jalrTarget rs1 imm))

/-- R195: to `pc + imm_J`, `x[rd] <- pc + 4`. -/
def execJal (rd : RegIdx) (imm : Word) (s : State) : Outcome State Fault Refusal :=
  .next (s.transfer (s.writeReg rd s.nextPc) (s.relTarget imm))

end Sys2Proof.Machine
end

