-- ==== Sys2Proof/Machine/Loads.lean ====
section
/-! DEFINITION. The loads (spec/42_loads.md). A load to x0 performs its access and can stop (R156). -/

namespace Sys2Proof.Machine

open Host (Outcome)

/-- R151: one byte, sign-extended. -/
def execLb (rd rs1 : RegIdx) (imm : Word) (s : State) : Outcome State Fault Refusal :=
  .next (s.load .byte (BitVec.signExtend 32) rd rs1 imm)

/-- R152: two bytes, sign-extended. -/
def execLh (rd rs1 : RegIdx) (imm : Word) (s : State) : Outcome State Fault Refusal :=
  .next (s.load .half (BitVec.signExtend 32) rd rs1 imm)

/-- R153: four bytes. -/
def execLw (rd rs1 : RegIdx) (imm : Word) (s : State) : Outcome State Fault Refusal :=
  .next (s.load .word (fun v => v) rd rs1 imm)

/-- R154: one byte, zero-extended. -/
def execLbu (rd rs1 : RegIdx) (imm : Word) (s : State) : Outcome State Fault Refusal :=
  .next (s.load .byte (BitVec.setWidth 32) rd rs1 imm)

/-- R155: two bytes, zero-extended. -/
def execLhu (rd rs1 : RegIdx) (imm : Word) (s : State) : Outcome State Fault Refusal :=
  .next (s.load .half (BitVec.setWidth 32) rd rs1 imm)

end Sys2Proof.Machine
end

