-- ==== Sys2Proof/Machine/RType.lean ====
section
/-! DEFINITION. The register-register instructions (spec/40_rtype.md). -/

namespace Sys2Proof.Machine

open Host (Outcome)

/-- R111: `x[rd] <- x[rs1] + x[rs2]`, modulo 2^32. -/
def execAdd (rd rs1 rs2 : RegIdx) (s : State) : Outcome State Fault Refusal :=
  .next (s.result rd (s.readReg rs1 + s.readReg rs2))

/-- R112: `x[rd] <- x[rs1] - x[rs2]`, modulo 2^32. -/
def execSub (rd rs1 rs2 : RegIdx) (s : State) : Outcome State Fault Refusal :=
  .next (s.result rd (s.readReg rs1 - s.readReg rs2))

/-- R113: `x[rd] <- x[rs1] << x[rs2][4:0]`. -/
def execSll (rd rs1 rs2 : RegIdx) (s : State) : Outcome State Fault Refusal :=
  .next (s.result rd (s.readReg rs1 <<< shiftAmount (s.readReg rs2)))

/-- R114: 1 when `x[rs1] <s x[rs2]`, else 0. -/
def execSlt (rd rs1 rs2 : RegIdx) (s : State) : Outcome State Fault Refusal :=
  .next (s.result rd (truth (condLt (s.readReg rs1) (s.readReg rs2))))

/-- R115: 1 when `x[rs1] <u x[rs2]`, else 0. -/
def execSltu (rd rs1 rs2 : RegIdx) (s : State) : Outcome State Fault Refusal :=
  .next (s.result rd (truth (condLtu (s.readReg rs1) (s.readReg rs2))))

/-- R116: `x[rd] <- x[rs1] ^ x[rs2]`. -/
def execXor (rd rs1 rs2 : RegIdx) (s : State) : Outcome State Fault Refusal :=
  .next (s.result rd (s.readReg rs1 ^^^ s.readReg rs2))

/-- R117: `x[rd] <- x[rs1] >>u x[rs2][4:0]`. -/
def execSrl (rd rs1 rs2 : RegIdx) (s : State) : Outcome State Fault Refusal :=
  .next (s.result rd (s.readReg rs1 >>> shiftAmount (s.readReg rs2)))

/-- R118: `x[rd] <- x[rs1] >>s x[rs2][4:0]`. -/
def execSra (rd rs1 rs2 : RegIdx) (s : State) : Outcome State Fault Refusal :=
  .next (s.result rd ((s.readReg rs1).sshiftRight (shiftAmount (s.readReg rs2))))

/-- R119: `x[rd] <- x[rs1] | x[rs2]`. -/
def execOr (rd rs1 rs2 : RegIdx) (s : State) : Outcome State Fault Refusal :=
  .next (s.result rd (s.readReg rs1 ||| s.readReg rs2))

/-- R120: `x[rd] <- x[rs1] & x[rs2]`. -/
def execAnd (rd rs1 rs2 : RegIdx) (s : State) : Outcome State Fault Refusal :=
  .next (s.result rd (s.readReg rs1 &&& s.readReg rs2))

end Sys2Proof.Machine
end

