-- ==== Sys2Proof/Machine/Stores.lean ====
section
/-! DEFINITION. The stores (spec/44_stores.md). -/

namespace Sys2Proof.Machine

open Host (Outcome)

/-- R166: one byte, `x[rs2][7:0]`. -/
def execSb (rs1 rs2 : RegIdx) (imm : Word) (s : State) : Outcome State Fault Refusal :=
  .next (s.store .byte ((s.readReg rs2).extractLsb' 0 8) rs1 imm)

/-- R167: two bytes, `x[rs2][15:0]`. -/
def execSh (rs1 rs2 : RegIdx) (imm : Word) (s : State) : Outcome State Fault Refusal :=
  .next (s.store .half ((s.readReg rs2).extractLsb' 0 16) rs1 imm)

/-- R168: four bytes, `x[rs2]`. -/
def execSw (rs1 rs2 : RegIdx) (imm : Word) (s : State) : Outcome State Fault Refusal :=
  .next (s.store .word (s.readReg rs2) rs1 imm)

end Sys2Proof.Machine
end

