-- ==== Sys2Proof/Machine/UType.lean ====
section
/-! DEFINITION. The upper-immediate instructions (spec/46_utype.md). -/

namespace Sys2Proof.Machine

open Host (Outcome)

/-- R190: `x[rd] <- imm_U`. -/
def execLui (rd : RegIdx) (imm : Word) (s : State) : Outcome State Fault Refusal :=
  .next (s.result rd imm)

/-- R191: `x[rd] <- pc + imm_U`, modulo 2^32. -/
def execAuipc (rd : RegIdx) (imm : Word) (s : State) : Outcome State Fault Refusal :=
  .next (s.result rd (s.pc + imm))

end Sys2Proof.Machine
end

