-- ==== Sys2Proof/Machine/Fetch.lean ====
section
/-! DEFINITION. Fetching and decoding the instruction at the pc (spec/20_memory.md R42, spec/30_encoding.md R86, R92). -/

namespace Sys2Proof.Machine

/-- The instruction at the pc, or the status the step ends with: InstructionAccessFault(pc) where the image has no word
(R206), IllegalInstruction(inst) where the word matches no row (R204), in this order (R212). -/
def State.fetchDecode (s : State) : Except Status Instr :=
  match s.launch.fetch s.pc with
  | none   => .error (.faulted .instructionAccessFault s.pc)
  | some w =>
    match decode w with
    | .ok i    => .ok i
    | .error _ => .error (.faulted .illegalInstruction w)

end Sys2Proof.Machine
end

