-- ==== Sys2Proof/Machine/Step.lean ====
section
/-! DEFINITION. One step of the core (spec/10_state.md R30, spec/60_exceptions.md R212). -/

namespace Sys2Proof.Machine

/-- One step: a state that is not running has none (R33); a running one ends the run at END_PC (R246), or fetches, decodes
and executes one instruction (R30). -/
def step (s : State) : Host.Outcome State Fault Refusal :=
  match s.status with
  | .halted       => .fault .noStepHalted
  | .faulted c w  => .fault (.noStepFaulted c w)
  | .refused r    => .fault (.noStepRefused r)
  | .running      =>
    if s.pc = s.launch.endPc then .next (s.stop .halted)
    else
      match s.fetchDecode with
      | .ok i     => exec i s
      | .error st => .next (s.stop st)

/-- The state with a program of one word launched where the next step fetches (log entry 8): the low `nbits` bits of `w`,
every bit above them zero, are the program image at the pc, END_PC is at its default just past the image, and the
status is `running`. -/
def State.withFetchWord (s : State) (nbits w : Nat) : State :=
  { s with
    status := .running
    launch := s.launch.withProgram s.pc [BitVec.ofNat 32 (w % 2 ^ nbits)] }

end Sys2Proof.Machine
end

