-- ==== Sys2Proof/Machine/Assembler.lean ====
section
/-! DEFINITION. The assembler's side of the spec: ABI names (spec/10_state.md R22), the text of an instruction
(spec/30_encoding.md R97, R98) and the pseudo-instructions (R99). Software conventions: no step calls any of it (log
entry 24). -/

namespace Sys2Proof.Machine

/-! ## Register names (R22) -/

/-- The ABI name of a register; x8 has the second name fp. -/
def abiName (r : RegIdx) : String :=
  (["zero", "ra", "sp", "gp", "tp", "t0", "t1", "t2", "s0", "s1", "a0", "a1", "a2", "a3", "a4", "a5", "a6", "a7",
    "s2", "s3", "s4", "s5", "s6", "s7", "s8", "s9", "s10", "s11", "t3", "t4", "t5", "t6"][r.toNat]?).getD ""

/-- Who saves a register across a call (R22, the "Saved by" column). -/
inductive SavedBy where
  | nobody
  | caller
  | callee
deriving DecidableEq, Repr

def savedBy (r : RegIdx) : SavedBy :=
  if r ∈ [0#5, 3#5, 4#5] then .nobody
  else if r ∈ [2#5, 8#5, 9#5] || decide (18 ≤ r.toNat ∧ r.toNat ≤ 27) then .callee
  else .caller

/-! ## The text of an instruction (R97, R98) -/

def regText (r : RegIdx) : String := "x" ++ toString r.toNat

def numText (v : Word) : String := toString v.toInt

def text3 (m a b c : String) : String := m ++ " " ++ a ++ ", " ++ b ++ ", " ++ c

def text2 (m a b : String) : String := m ++ " " ++ a ++ ", " ++ b

def offsetText (base : RegIdx) (v : Word) : String := numText v ++ "(" ++ regText base ++ ")"

def textR (m : String) (rd a b : RegIdx) : String := text3 m (regText rd) (regText a) (regText b)
def textI (m : String) (rd a : RegIdx) (v : Word) : String := text3 m (regText rd) (regText a) (numText v)
def textShift (m : String) (rd a : RegIdx) (n : BitVec 5) : String := text3 m (regText rd) (regText a) (toString n.toNat)
def textMem (m : String) (r base : RegIdx) (v : Word) : String := text2 m (regText r) (offsetText base v)
def textB (m : String) (a b : RegIdx) (v : Word) : String := text3 m (regText a) (regText b) (numText v)

/-- The field `inst[31:12]` that LUI and AUIPC are written with. -/
def textU (m : String) (rd : RegIdx) (v : Word) : String := text2 m (regText rd) (toString (v.extractLsb' 12 20).toNat)

/-- An instruction as assembly text; a branch or JAL operand is its byte offset. -/
def asmText : Instr → String
  | .add rd a b => textR "add" rd a b
  | .sub rd a b => textR "sub" rd a b
  | .sll rd a b => textR "sll" rd a b
  | .slt rd a b => textR "slt" rd a b
  | .sltu rd a b => textR "sltu" rd a b
  | .xor rd a b => textR "xor" rd a b
  | .srl rd a b => textR "srl" rd a b
  | .sra rd a b => textR "sra" rd a b
  | .or rd a b => textR "or" rd a b
  | .and rd a b => textR "and" rd a b
  | .addi rd a v => textI "addi" rd a v
  | .slti rd a v => textI "slti" rd a v
  | .sltiu rd a v => textI "sltiu" rd a v
  | .xori rd a v => textI "xori" rd a v
  | .ori rd a v => textI "ori" rd a v
  | .andi rd a v => textI "andi" rd a v
  | .slli rd a n => textShift "slli" rd a n
  | .srli rd a n => textShift "srli" rd a n
  | .srai rd a n => textShift "srai" rd a n
  | .lb rd a v => textMem "lb" rd a v
  | .lh rd a v => textMem "lh" rd a v
  | .lw rd a v => textMem "lw" rd a v
  | .lbu rd a v => textMem "lbu" rd a v
  | .lhu rd a v => textMem "lhu" rd a v
  | .jalr rd a v => textMem "jalr" rd a v
  | .sb a b v => textMem "sb" b a v
  | .sh a b v => textMem "sh" b a v
  | .sw a b v => textMem "sw" b a v
  | .beq a b v => textB "beq" a b v
  | .bne a b v => textB "bne" a b v
  | .blt a b v => textB "blt" a b v
  | .bge a b v => textB "bge" a b v
  | .bltu a b v => textB "bltu" a b v
  | .bgeu a b v => textB "bgeu" a b v
  | .lui rd v => textU "lui" rd v
  | .auipc rd v => textU "auipc" rd v
  | .jal rd v => text2 "jal" (regText rd) (numText v)

/-! ## Pseudo-instructions (R99) -/

/-- The loads and the stores that R99 also gives a symbol form. -/
inductive LoadOp where
  | lb | lh | lw | lbu | lhu
deriving DecidableEq, Repr

inductive StoreOp where
  | sb | sh | sw
deriving DecidableEq, Repr

/-- A pseudo-instruction; `off` is the distance of the label or symbol from the first instruction of the expansion. -/
inductive Pseudo where
  | nop
  | mv (rd rs : RegIdx)
  | li (rd : RegIdx) (imm : Word)
  | la (rd : RegIdx) (off : Word)
  | not (rd rs : RegIdx)
  | neg (rd rs : RegIdx)
  | seqz (rd rs : RegIdx)
  | snez (rd rs : RegIdx)
  | sltz (rd rs : RegIdx)
  | sgtz (rd rs : RegIdx)
  | beqz (rs : RegIdx) (off : Word)
  | bnez (rs : RegIdx) (off : Word)
  | blez (rs : RegIdx) (off : Word)
  | bgez (rs : RegIdx) (off : Word)
  | bltz (rs : RegIdx) (off : Word)
  | bgtz (rs : RegIdx) (off : Word)
  | bgt (rs rt : RegIdx) (off : Word)
  | ble (rs rt : RegIdx) (off : Word)
  | bgtu (rs rt : RegIdx) (off : Word)
  | bleu (rs rt : RegIdx) (off : Word)
  | j (off : Word)
  | jalLabel (off : Word)
  | jr (rs : RegIdx)
  | jalrReg (rs : RegIdx)
  | ret
  | call (off : Word)
  | tail (off : Word)
  | loadSym (op : LoadOp) (rd : RegIdx) (off : Word)
  | storeSym (op : StoreOp) (rs : RegIdx) (off : Word) (rt : RegIdx)
deriving DecidableEq, Repr

/-- `lo = sext_12(v[11:0])`. -/
def loPart (v : Word) : Word := (v.extractLsb' 0 12).signExtend 32

/-- `hi` as the 32-bit `imm_U`: bits 31 to 12 of `v + 0x800`, the low twelve bits zero. -/
def hiPart (v : Word) : Word := (v + 0x800#32) &&& 0xFFFFF000#32

def LoadOp.instr : LoadOp → RegIdx → RegIdx → Word → Instr
  | .lb => .lb
  | .lh => .lh
  | .lw => .lw
  | .lbu => .lbu
  | .lhu => .lhu

def StoreOp.instr : StoreOp → RegIdx → RegIdx → Word → Instr
  | .sb => .sb
  | .sh => .sh
  | .sw => .sw

/-- The expansion of a pseudo-instruction (R99). -/
def expandPseudo : Pseudo → List Instr
  | .nop => [.addi 0#5 0#5 0#32]
  | .mv rd rs => [.addi rd rs 0#32]
  | .li rd v =>
    if v == loPart v then [.addi rd 0#5 v]
    else if loPart v == 0#32 then [.lui rd (hiPart v)]
    else [.lui rd (hiPart v), .addi rd rd (loPart v)]
  | .la rd off => [.auipc rd (hiPart off), .addi rd rd (loPart off)]
  | .not rd rs => [.xori rd rs 0xFFFFFFFF#32]
  | .neg rd rs => [.sub rd 0#5 rs]
  | .seqz rd rs => [.sltiu rd rs 1#32]
  | .snez rd rs => [.sltu rd 0#5 rs]
  | .sltz rd rs => [.slt rd rs 0#5]
  | .sgtz rd rs => [.slt rd 0#5 rs]
  | .beqz rs off => [.beq rs 0#5 off]
  | .bnez rs off => [.bne rs 0#5 off]
  | .blez rs off => [.bge 0#5 rs off]
  | .bgez rs off => [.bge rs 0#5 off]
  | .bltz rs off => [.blt rs 0#5 off]
  | .bgtz rs off => [.blt 0#5 rs off]
  | .bgt rs rt off => [.blt rt rs off]
  | .ble rs rt off => [.bge rt rs off]
  | .bgtu rs rt off => [.bltu rt rs off]
  | .bleu rs rt off => [.bgeu rt rs off]
  | .j off => [.jal 0#5 off]
  | .jalLabel off => [.jal 1#5 off]
  | .jr rs => [.jalr 0#5 rs 0#32]
  | .jalrReg rs => [.jalr 1#5 rs 0#32]
  | .ret => [.jalr 0#5 1#5 0#32]
  | .call off => [.auipc 1#5 (hiPart off), .jalr 1#5 1#5 (loPart off)]
  | .tail off => [.auipc 6#5 (hiPart off), .jalr 0#5 6#5 (loPart off)]
  | .loadSym op rd off => [.auipc rd (hiPart off), op.instr rd rd (loPart off)]
  | .storeSym op rs off rt => [.auipc rt (hiPart off), op.instr rt rs (loPart off)]

end Sys2Proof.Machine
end

