-- ==== Sys2Proof/Machine/ControlLogic.lean ====
section
/-! DEFINITION. The source's control-logic excerpt (spec/30_encoding.md R100 to R103), transcribed. It is informative: it
defines no instruction (R104, C1) and no step calls it (log entry 12). -/

namespace Sys2Proof.Machine

/-- The signals of the main decoder (R100, R102). -/
structure Control where
  regWrite  : Bool
  immSrc    : BitVec 2
  aluSrc    : Bool
  memWrite  : Bool
  resultSrc : Bool
  branch    : Bool
  aluOp     : BitVec 2
deriving DecidableEq, Repr

/-- The main decoder (R100), signal by signal. -/
def mainDecoder (op : BitVec 7) : Control where
  regWrite  := op == 0b0000011#7 || op == 0b0110011#7 || op == 0b0010011#7
  immSrc    := if op == 0b0100011#7 then 0b01#2 else if op == 0b1100011#7 then 0b10#2 else 0b00#2
  aluSrc    := op == 0b0000011#7 || op == 0b0100011#7 || op == 0b0010011#7
  memWrite  := op == 0b0100011#7
  resultSrc := op == 0b0000011#7
  branch    := op == 0b1100011#7
  aluOp     := if op == 0b0110011#7 then 0b10#2 else if op == 0b1100011#7 then 0b01#2 else 0b00#2

/-- The ALU decoder (R101): 000 ADD, 001 SUB, 010 AND, 011 OR. -/
def aluDecoder (aluOp : BitVec 2) (funct3 : BitVec 3) (funct7 : BitVec 7) : BitVec 3 :=
  if aluOp == 0b00#2 then 0b000#3
  else if aluOp == 0b01#2 then 0b001#3
  else if aluOp == 0b10#2 then
    if funct3 == 0b000#3 then
      if funct7 == 0b0000000#7 then 0b000#3 else if funct7 == 0b0100000#7 then 0b001#3 else 0b000#3
    else if funct3 == 0b111#3 then 0b010#3
    else if funct3 == 0b110#3 then 0b011#3
    else 0b000#3
  else 0b000#3

/-- The ALU operation the two excerpts give a word (R103). -/
def aluControlOf (w : Word) : BitVec 3 :=
  aluDecoder (mainDecoder (w.extractLsb' 0 7)).aluOp (w.extractLsb' 12 3) (w.extractLsb' 25 7)

end Sys2Proof.Machine
end

