-- ==== Sys2Proof/Safety.lean ====
section
/-! DEFINITION. What counts as a completed and as a safe run, the invariant of the machine, and the words claims are
written in. -/

namespace Sys2Proof.Machine

/-! ## Runs (spec/70_reset_and_hazards.md R245, R246, R248) -/

/-- The state after `k` steps (R245): a run is a sequence of steps, and a state without a step ends it. -/
def State.run : Nat → State → Host.Outcome State Fault Refusal
  | 0, s => .next s
  | k + 1, s =>
    match step s with
    | .next t    => State.run k t
    | .fault f   => .fault f
    | .refused r => .refused r

/-- A run is accepted while it has neither faulted nor been refused (R201, R202). -/
def State.accepted (s : State) : Bool :=
  match s.status with
  | .running     => true
  | .halted      => true
  | .faulted _ _ => false
  | .refused _   => false

/-- The run from `s` is completed in `k` steps with the end state `t` (R246: `Halted` is the only final state in which a
run counts as completed). -/
def State.completesIn (s : State) (k : Nat) (t : State) : Prop :=
  s.run k = .next t ∧ t.status = .halted

/-- Every state of the run from `s`, up to `k` steps, is accepted. -/
def State.safeFor (s : State) : Nat → Prop
  | 0     => s.accepted = true
  | k + 1 => s.accepted = true ∧ ∀ t, step s = .next t → t.safeFor k

/-- The instructions of a list one after the other, whatever their addresses (for expansions, R99). -/
def execSeq : List Instr → State → Host.Outcome State Fault Refusal
  | [], s => .next s
  | i :: is, s =>
    match exec i s with
    | .next t    => execSeq is t
    | .fault f   => .fault f
    | .refused r => .refused r

/-! ## The invariant -/

/-- What holds of every state of a well-formed launch: the launch is well formed (R241), the pc is a multiple of 4 (R28),
memory has its canonical form and lists bytes of DATA_REGION only (R39), a halted state stands at END_PC (R246), and a
state that could not fetch or decode names the pc or the word there (R201, R204, R206). -/
structure State.Inv (s : State) : Prop where
  launchWf    : s.launch.wf = true
  pcAligned   : s.pc.toNat % 4 = 0
  memWf       : Memory.wf s.mem
  memInRegion : ∀ c ∈ s.mem, s.launch.inDataRegion c.1 = true
  haltedAtEnd : s.status = .halted → s.pc = s.launch.endPc
  fetchFault  : ∀ w, s.status = .faulted .instructionAccessFault w → w = s.pc ∧ s.launch.fetch s.pc = none
  illegalWord : ∀ w, s.status = .faulted .illegalInstruction w → s.launch.fetch s.pc = some w

/-! ## What an instruction changes, in the terms of the reads -/

/-- Everything but the registers and the pc is unchanged: every byte of memory, the status, the launch. -/
def State.SameRest (s t : State) : Prop :=
  (∀ a, t.readByte a = s.readByte a) ∧ t.mem = s.mem ∧ t.status = s.status ∧ t.launch = s.launch

/-- `rd` holds `v` (nothing is written when `rd` is x0, R21), every other register and everything but the pc is
unchanged. -/
def State.WritesReg (s t : State) (rd : RegIdx) (v : Word) : Prop :=
  (∀ r, t.readReg r = if r = rd ∧ r ≠ 0#5 then v else s.readReg r) ∧ s.SameRest t

/-- Every register, and everything but the pc, is unchanged. -/
def State.WritesNothing (s t : State) : Prop :=
  (∀ r, t.readReg r = s.readReg r) ∧ s.SameRest t

/-- The step ends with the status `st`; every register, the pc, every byte of memory and the launch are unchanged
(R201, R202). -/
def State.StopsWith (s t : State) (st : Status) : Prop :=
  t.status = st ∧ t.pc = s.pc ∧ (∀ r, t.readReg r = s.readReg r) ∧ (∀ a, t.readByte a = s.readByte a) ∧
    t.mem = s.mem ∧ t.launch = s.launch

/-- The `n` bytes from `a` on hold the low `8 n` bits of `v`, little-endian (R44, R51); every other byte, every register,
the status and the launch are unchanged. -/
def State.WritesBytes (s t : State) (a n : Nat) (v : Word) : Prop :=
  (∀ k, k < n → t.readByte (a + k) = v.extractLsb' (8 * k) 8) ∧
    (∀ b, (∀ k, k < n → b ≠ a + k) → t.readByte b = s.readByte b) ∧
    (∀ r, t.readReg r = s.readReg r) ∧ t.status = s.status ∧ t.launch = s.launch

/-- An access of `n` bytes at `a` is aligned (R46). -/
def Aligned (a : Word) (n : Nat) : Prop := a.toNat % n = 0

/-- Every byte of an access of `n` bytes at `a` lies in DATA_REGION (R43). -/
def State.InData (s : State) (a : Word) (n : Nat) : Prop :=
  ∀ k, k < n → s.launch.inDataRegion (a.toNat + k) = true

/-- Some byte of an access of `n` bytes at `a` lies in the program image (R58). -/
def State.TouchesImage (s : State) (a : Word) (n : Nat) : Prop :=
  ∃ k, k < n ∧ s.launch.inImage (a.toNat + k) = true

/-- The bits of the little-endian value of the `n` bytes at `a` (R44): bit `8 k + j` of `v` is bit `j` of byte `a + k`. -/
def State.HoldsBytes (s : State) (a n : Nat) (v : Word) : Prop :=
  ∀ k j, k < n → j < 8 → v.getLsbD (8 * k + j) = (s.readByte (a + k)).getLsbD j

/-- Bits 31 to `n` of `v` all equal `b` (R10, `sext` and `zext`). -/
def UpperBits (v : Word) (n : Nat) (b : Bool) : Prop := ∀ i, n ≤ i → i < 32 → v.getLsbD i = b

/-- The address of the next instruction as R27 gives it, instruction by instruction. -/
def successorPc (i : Instr) (s : State) : Word :=
  match i with
  | .jal _ v => s.pc + v
  | .jalr _ a v => (s.readReg a + v) &&& 0xFFFFFFFE#32
  | .beq a b v => if s.readReg a = s.readReg b then s.pc + v else s.pc + 4#32
  | .bne a b v => if s.readReg a ≠ s.readReg b then s.pc + v else s.pc + 4#32
  | .blt a b v => if (s.readReg a).toInt < (s.readReg b).toInt then s.pc + v else s.pc + 4#32
  | .bge a b v => if (s.readReg b).toInt ≤ (s.readReg a).toInt then s.pc + v else s.pc + 4#32
  | .bltu a b v => if (s.readReg a).toNat < (s.readReg b).toNat then s.pc + v else s.pc + 4#32
  | .bgeu a b v => if (s.readReg b).toNat ≤ (s.readReg a).toNat then s.pc + v else s.pc + 4#32
  | .add .. | .sub .. | .sll .. | .slt .. | .sltu .. | .xor .. | .srl .. | .sra .. | .or .. | .and .. => s.pc + 4#32
  | .addi .. | .slti .. | .sltiu .. | .xori .. | .ori .. | .andi .. | .slli .. | .srli .. | .srai .. => s.pc + 4#32
  | .lb .. | .lh .. | .lw .. | .lbu .. | .lhu .. | .sb .. | .sh .. | .sw .. | .lui .. | .auipc .. => s.pc + 4#32

end Sys2Proof.Machine
end

