-- ==== Sys2Proof/Certificates/Slice0/Obligations.lean ====
section
/-! DEFINITION. The statements for the provers. A statement whose docstring says "the spec's decision D<n>" rests on a
choice the spec marks as its own (spec/92_eei_decisions.md). -/

open Sys2Proof Sys2Proof.Machine

/-! ## Encoding -/

/-- R85, R86: the encoder is the inverse of the decoder. Every well-formed instruction, with every operand at every value
its format admits, is read back from its word. -/
def Obligations.DecodeEncodeRoundTrip : Prop :=
  ∀ i : Instr, i.wf = true → decode (encode i) = .ok i

/-- The other direction: an accepted word is the word of the instruction read from it, which is well formed; no bit of it
is dropped (R86: "there are no don't-care bits"). -/
def Obligations.EncodeDecodeRoundTrip : Prop :=
  ∀ (w : Word) (i : Instr), decode w = .ok i → i.wf = true ∧ encode i = w

/-- R90: there are 37 rows, any two differ in a bit both masks fix, and so no word matches two. -/
def Obligations.NoWordMatchesTwoRows : Prop :=
  opRows.length = 37 ∧
  (∀ (j k : Nat) (r q : OpRow), j ≠ k → opRows[j]? = some r → opRows[k]? = some q →
    r.mask &&& q.mask &&& (r.bits ^^^ q.bits) ≠ 0#32) ∧
  ∀ (w : Word) (j k : Nat) (r q : OpRow), opRows[j]? = some r → opRows[k]? = some q →
    w &&& r.mask = r.bits → w &&& q.mask = q.bits → j = k

/-- R93, class by class, and R92, R204: a word is rejected exactly when it lies in a class of R93, and a step that
fetches such a word ends in `Faulted(IllegalInstruction, word)` with nothing else changed. The spec's decision D4. -/
def Obligations.UnlistedWordsFault : Prop :=
  ∀ w : Word,
    ((∃ e, decode w = .error e) ↔
      (w.extractLsb' 0 7 ∉ [0x03#7, 0x13#7, 0x17#7, 0x23#7, 0x33#7, 0x37#7, 0x63#7, 0x67#7, 0x6F#7] ∨
       (w.extractLsb' 0 7 = 0b0110011#7 ∧ w.extractLsb' 25 7 ≠ 0b0000000#7 ∧ w.extractLsb' 25 7 ≠ 0b0100000#7) ∨
       (w.extractLsb' 0 7 = 0b0110011#7 ∧ w.extractLsb' 25 7 = 0b0100000#7 ∧
          w.extractLsb' 12 3 ≠ 0b000#3 ∧ w.extractLsb' 12 3 ≠ 0b101#3) ∨
       (w.extractLsb' 0 7 = 0b0010011#7 ∧ w.extractLsb' 12 3 = 0b001#3 ∧ w.extractLsb' 25 7 ≠ 0b0000000#7) ∨
       (w.extractLsb' 0 7 = 0b0010011#7 ∧ w.extractLsb' 12 3 = 0b101#3 ∧
          w.extractLsb' 25 7 ≠ 0b0000000#7 ∧ w.extractLsb' 25 7 ≠ 0b0100000#7) ∨
       (w.extractLsb' 0 7 = 0b0000011#7 ∧ w.extractLsb' 12 3 ∈ [0b011#3, 0b110#3, 0b111#3]) ∨
       (w.extractLsb' 0 7 = 0b1100111#7 ∧ w.extractLsb' 12 3 ≠ 0b000#3) ∨
       (w.extractLsb' 0 7 = 0b0100011#7 ∧ w.extractLsb' 12 3 ∈ [0b011#3, 0b100#3, 0b101#3, 0b110#3, 0b111#3]) ∨
       (w.extractLsb' 0 7 = 0b1100011#7 ∧ w.extractLsb' 12 3 ∈ [0b010#3, 0b011#3]))) ∧
    ∀ s : State, s.status = .running → s.pc ≠ s.launch.endPc → s.launch.fetch s.pc = some w →
      (∃ e, decode w = .error e) →
      ∃ t, step s = .next t ∧ s.StopsWith t (.faulted .illegalInstruction w)

/-- Words the spec writes out (R91, and the examples of R111, R140, R152, R160, R168, R176, R190, R195) decode to the
instructions they stand for. -/
def Obligations.SpecWordsDecode : Prop :=
  decode 0x00A00093#32 = .ok (.addi 1#5 0#5 10#32) ∧
  decode 0x0020A023#32 = .ok (.sw 1#5 2#5 0#32) ∧
  decode 0x0020C463#32 = .ok (.blt 1#5 2#5 8#32) ∧
  decode 0x007302B3#32 = .ok (.add 5#5 6#5 7#5) ∧
  decode 0x40435293#32 = .ok (.srai 5#5 6#5 4#5) ∧
  decode 0x00631283#32 = .ok (.lh 5#5 6#5 6#32) ∧
  decode 0xFFC300E7#32 = .ok (.jalr 1#5 6#5 0xFFFFFFFC#32) ∧
  decode 0xFE732E23#32 = .ok (.sw 6#5 7#5 0xFFFFFFFC#32) ∧
  decode 0xFE7308E3#32 = .ok (.beq 6#5 7#5 0xFFFFFFF0#32) ∧
  decode 0x12345297#32 = .ok (.auipc 5#5 0x12345000#32) ∧
  decode 0xFFFFF2B7#32 = .ok (.lui 5#5 0xFFFFF000#32) ∧
  decode 0x800000EF#32 = .ok (.jal 1#5 0xFFF00000#32)

/-- R81 to R84 (and the I-type immediate of R80): each immediate is the concatenation the source writes, is even where its
low bit is zero, and has the signed range the rule gives. -/
def Obligations.ImmediatesAsTheSourceWritesThem : Prop :=
  ∀ w : Word,
    (immI w = (BitVec.replicate 20 (w.extractLsb' 31 1) ++ w.extractLsb' 20 12 : BitVec 32) ∧
      -2048 ≤ (immI w).toInt ∧ (immI w).toInt ≤ 2047) ∧
    (immS w = (BitVec.replicate 20 (w.extractLsb' 31 1) ++ w.extractLsb' 25 7 ++ w.extractLsb' 7 5 : BitVec 32) ∧
      -2048 ≤ (immS w).toInt ∧ (immS w).toInt ≤ 2047) ∧
    (immB w = (BitVec.replicate 19 (w.extractLsb' 31 1) ++ w.extractLsb' 31 1 ++ w.extractLsb' 7 1 ++
        w.extractLsb' 25 6 ++ w.extractLsb' 8 4 ++ 0#1 : BitVec 32) ∧
      -4096 ≤ (immB w).toInt ∧ (immB w).toInt ≤ 4094 ∧ (immB w).toNat % 2 = 0) ∧
    ((immU w).extractLsb' 12 20 = w.extractLsb' 12 20 ∧ (immU w).extractLsb' 0 12 = 0#12 ∧
      immU w = (w.extractLsb' 12 20).setWidth 32 <<< 12) ∧
    (immJ w = (BitVec.replicate 11 (w.extractLsb' 31 1) ++ w.extractLsb' 31 1 ++ w.extractLsb' 12 8 ++
        w.extractLsb' 20 1 ++ w.extractLsb' 21 10 ++ 0#1 : BitVec 32) ∧
      -1048576 ≤ (immJ w).toInt ∧ (immJ w).toInt ≤ 1048574 ∧ (immJ w).toNat % 2 = 0)

/-! ## Reset, launch and the step -/

/-- The initial state of a run, for every launch, RESET_PC, INIT_REGS and INIT_MEM (the spec's decisions D15, D16, D17):
the registers and the bytes as given, the pc at RESET_PC, the status Running; a byte INIT_MEM does not give holds the
free value of log entry 4. -/
def Obligations.BootStateAsLaunched : Prop :=
  ∀ (l : Launch) (resetPc : Word) (regs : Vector Word 31) (m : Memory), Memory.wf m →
    (State.boot l resetPc regs m).pc = resetPc ∧ (State.boot l resetPc regs m).status = .running ∧
    (State.boot l resetPc regs m).launch = l ∧
    (State.boot l resetPc regs m).readReg 0#5 = 0#32 ∧
    (∀ (k : Nat) (h : k < 31), (State.boot l resetPc regs m).readReg (BitVec.ofNat 5 (k + 1)) = regs[k]) ∧
    (∀ a v, (a, v) ∈ m → (State.boot l resetPc regs m).readByte a = v) ∧
    (∀ a, (∀ v, (a, v) ∉ m) → (State.boot l resetPc regs m).readByte a = Config.unwrittenByte a)

/-- The state after reset: x0 and the status as the spec says; the pc, x1 to x31, the empty program and END_PC at the values
the MODEL chose (log entries 2, 3 and 5, DESIGN CHOICE); and it meets the invariant. -/
def Obligations.ResetStateMeetsInvariant : Prop :=
  (∀ r, State.reset.readReg r = 0#32) ∧ State.reset.status = .running ∧ State.reset.pc = Config.resetPc ∧
  State.reset.launch.program = [] ∧ State.reset.launch.endPc = State.reset.pc ∧ State.reset.mem = [] ∧
  State.reset.Inv

/-- A state that is not Running has no step, and a Running one always has one (R33, R245). The spec's decision D6. -/
def Obligations.ExactlyRunningStatesStep : Prop :=
  ∀ s : State, (s.status = .running ↔ ∃ t, step s = .next t) ∧
    (s.status = .halted → step s = .fault .noStepHalted) ∧
    (∀ c w, s.status = .faulted c w → step s = .fault (.noStepFaulted c w)) ∧
    (∀ r, s.status = .refused r → step s = .fault (.noStepRefused r))

/-- A step runs the instruction the word at the pc decodes to, and adds nothing around it (R30). -/
def Obligations.StepRunsTheDecodedInstruction : Prop :=
  ∀ (s : State) (w : Word) (i : Instr), s.status = .running → s.pc ≠ s.launch.endPc →
    s.launch.fetch s.pc = some w → decode w = .ok i → step s = exec i s

/-- At END_PC the run is over, before anything is fetched: the status becomes Halted and nothing else changes (R246). The
spec's decision D18. -/
def Obligations.ReachingEndPcHalts : Prop :=
  ∀ s : State, s.status = .running → s.pc = s.launch.endPc →
    ∃ t, step s = .next t ∧ s.StopsWith t .halted

/-- Fetch gives word `k` of the image at PROG_BASE + 4 k, and where the pc is the address of no word of the image the step
ends in InstructionAccessFault(pc) (R42, R206). The spec's decisions D11 and D26. -/
def Obligations.FetchReadsTheImageOnly : Prop :=
  ∀ s : State,
    (∀ (k : Nat) (w : Word), s.launch.program[k]? = some w → s.pc.toNat = s.launch.progBase.toNat + 4 * k →
      s.launch.fetch s.pc = some w) ∧
    (s.status = .running → s.pc ≠ s.launch.endPc →
      (∀ k, k < s.launch.program.length → s.pc.toNat ≠ s.launch.progBase.toNat + 4 * k) →
      ∃ t, step s = .next t ∧ s.StopsWith t (.faulted .instructionAccessFault s.pc))

/-- No step changes the launch, so no store is ever seen by fetch (R42, R58, R253). The spec's decision D11. -/
def Obligations.NoStepChangesTheProgram : Prop :=
  ∀ s t : State, step s = .next t → t.launch = s.launch ∧ ∀ a, t.launch.fetch a = s.launch.fetch a

/-- A step that ends the run changes the status and nothing else: faults are precise (R201, R202, R246). The spec's
decisions D6 and D22. -/
def Obligations.StopsArePrecise : Prop :=
  ∀ s t : State, step s = .next t → t.status ≠ .running → s.StopsWith t t.status

/-- One step keeps the invariant: the launch stays well formed, the pc a multiple of 4, memory in canonical form and within
DATA_REGION, a halted state at END_PC, a fetch or decode fault naming what stands at the pc. -/
def Obligations.StepKeepsInvariant : Prop :=
  ∀ s t : State, s.Inv → step s = .next t → t.Inv

/-- Every state of every run from a state that meets the invariant meets it, and a completed run stands at END_PC. -/
def Obligations.RunsKeepInvariant : Prop :=
  ∀ (k : Nat) (s t : State), s.Inv → s.run k = .next t →
    t.Inv ∧ t.launch = s.launch ∧ (t.status = .halted → t.pc = s.launch.endPc)

/-- A completed run (R246) passed through no faulted and no refused state (R248). The spec's decision D18. -/
def Obligations.CompletedRunsAreSafe : Prop :=
  ∀ (k : Nat) (s t : State), s.status = .running → s.completesIn k t →
    s.safeFor k ∧ t.pc = t.launch.endPc ∧ t.launch = s.launch

/-- The word `withFetchWord` places is the next to run (the MODEL's convention, log entry 8). -/
def Obligations.PlacedWordRunsNext : Prop :=
  ∀ (s : State) (nbits w : Nat) (i : Instr), decodeTableWord nbits w = some i →
    step (s.withFetchWord nbits w) = exec i (s.withFetchWord nbits w) ∧
    (∀ r, (s.withFetchWord nbits w).readReg r = s.readReg r) ∧ (s.withFetchWord nbits w).pc = s.pc ∧
    (s.withFetchWord nbits w).mem = s.mem

/-- DATA_REGION and the program image share no byte (R43, R241), in every launch (the MODEL's reading, log entry 6). -/
def Obligations.DataRegionDisjointFromImage : Prop :=
  ∀ (l : Launch) (a : Nat), l.inDataRegion a = true → l.inImage a = false ∧ a < 2 ^ 32

/-! ## Registers -/

/-- x0 always reads as 0, after reset too, and a write to it changes nothing; a write to another register is read back and
leaves every other register alone (R21, R35). -/
def Obligations.RegisterFileLaws : Prop :=
  ∀ (s : State) (v : Word), s.readReg 0#5 = 0#32 ∧ s.writeReg 0#5 v = s ∧
    ∀ r q : RegIdx, r ≠ 0#5 → (s.writeReg r v).readReg q = if q = r then v else s.readReg q

/-- No instruction writes a register but its `rd`, and what it does depends on its source registers, the pc, the memory, the
status and the launch only (R23): from two states that agree on these, it makes the same pc, memory, status and launch,
and every register is either the same `rd` or unchanged on both sides. -/
def Obligations.OnlyNamedRegistersReadAndWritten : Prop :=
  ∀ (i : Instr) (s s' t : State), s'.pc = s.pc → s'.mem = s.mem → s'.status = s.status → s'.launch = s.launch →
    (∀ r, r ∈ i.sources → s'.readReg r = s.readReg r) → exec i s = .next t →
    ∃ t', exec i s' = .next t' ∧ t'.pc = t.pc ∧ t'.mem = t.mem ∧ t'.status = t.status ∧ t'.launch = t.launch ∧
      ∀ r, (t.readReg r = s.readReg r ∧ t'.readReg r = s'.readReg r) ∨
        (i.dest = some r ∧ t'.readReg r = t.readReg r)

/-- The pc after an instruction that does not end the run is the successor R27 gives (D8, D9: the spec's decisions). -/
def Obligations.PcAdvancesToSuccessor : Prop :=
  ∀ (i : Instr) (s t : State), s.status = .running → exec i s = .next t → t.status = .running →
    t.pc = successorPc i s

/-! ## Register-register instructions -/

/-- R111, R112: encoding, result modulo 2^32, frame; they always complete. -/
def Obligations.AddSubComplete : Prop :=
  (∀ w : Word, w &&& 0xFE00707F#32 = 0x00000033#32 →
    decode w = .ok (.add (w.extractLsb' 7 5) (w.extractLsb' 15 5) (w.extractLsb' 20 5))) ∧
  (∀ w : Word, w &&& 0xFE00707F#32 = 0x40000033#32 →
    decode w = .ok (.sub (w.extractLsb' 7 5) (w.extractLsb' 15 5) (w.extractLsb' 20 5))) ∧
  ∀ (s : State) (rd rs1 rs2 : RegIdx),
    (∃ t v, exec (.add rd rs1 rs2) s = .next t ∧ s.WritesReg t rd v ∧ t.pc = s.pc + 4#32 ∧
      v.toNat = ((s.readReg rs1).toNat + (s.readReg rs2).toNat) % 2 ^ 32) ∧
    (∃ t v, exec (.sub rd rs1 rs2) s = .next t ∧ s.WritesReg t rd v ∧ t.pc = s.pc + 4#32 ∧
      (v.toNat + (s.readReg rs2).toNat) % 2 ^ 32 = (s.readReg rs1).toNat)

/-- R113, R117, R118: encoding, result bit by bit with the amount `x[rs2][4:0]` (R10), frame; they always complete. -/
def Obligations.RegisterShiftsComplete : Prop :=
  (∀ w : Word, w &&& 0xFE00707F#32 = 0x00001033#32 →
    decode w = .ok (.sll (w.extractLsb' 7 5) (w.extractLsb' 15 5) (w.extractLsb' 20 5))) ∧
  (∀ w : Word, w &&& 0xFE00707F#32 = 0x00005033#32 →
    decode w = .ok (.srl (w.extractLsb' 7 5) (w.extractLsb' 15 5) (w.extractLsb' 20 5))) ∧
  (∀ w : Word, w &&& 0xFE00707F#32 = 0x40005033#32 →
    decode w = .ok (.sra (w.extractLsb' 7 5) (w.extractLsb' 15 5) (w.extractLsb' 20 5))) ∧
  ∀ (s : State) (rd rs1 rs2 : RegIdx) (n : Nat), n = (s.readReg rs2).toNat % 32 →
    (∃ t v, exec (.sll rd rs1 rs2) s = .next t ∧ s.WritesReg t rd v ∧ t.pc = s.pc + 4#32 ∧
      ∀ i, i < 32 → v.getLsbD i = if n ≤ i then (s.readReg rs1).getLsbD (i - n) else false) ∧
    (∃ t v, exec (.srl rd rs1 rs2) s = .next t ∧ s.WritesReg t rd v ∧ t.pc = s.pc + 4#32 ∧
      ∀ i, i < 32 → v.getLsbD i = if i + n ≤ 31 then (s.readReg rs1).getLsbD (i + n) else false) ∧
    (∃ t v, exec (.sra rd rs1 rs2) s = .next t ∧ s.WritesReg t rd v ∧ t.pc = s.pc + 4#32 ∧
      ∀ i, i < 32 → v.getLsbD i =
        if i + n ≤ 31 then (s.readReg rs1).getLsbD (i + n) else (s.readReg rs1).getLsbD 31)

/-- R114, R115: encoding, the full word 1 or 0 of the signed and of the unsigned comparison, frame; they always complete. -/
def Obligations.RegisterComparesComplete : Prop :=
  (∀ w : Word, w &&& 0xFE00707F#32 = 0x00002033#32 →
    decode w = .ok (.slt (w.extractLsb' 7 5) (w.extractLsb' 15 5) (w.extractLsb' 20 5))) ∧
  (∀ w : Word, w &&& 0xFE00707F#32 = 0x00003033#32 →
    decode w = .ok (.sltu (w.extractLsb' 7 5) (w.extractLsb' 15 5) (w.extractLsb' 20 5))) ∧
  ∀ (s : State) (rd rs1 rs2 : RegIdx),
    (∃ t v, exec (.slt rd rs1 rs2) s = .next t ∧ s.WritesReg t rd v ∧ t.pc = s.pc + 4#32 ∧
      v = if (s.readReg rs1).toInt < (s.readReg rs2).toInt then 0x00000001#32 else 0x00000000#32) ∧
    (∃ t v, exec (.sltu rd rs1 rs2) s = .next t ∧ s.WritesReg t rd v ∧ t.pc = s.pc + 4#32 ∧
      v = if (s.readReg rs1).toNat < (s.readReg rs2).toNat then 0x00000001#32 else 0x00000000#32)

/-- R116, R119, R120: encoding, result bit by bit, frame; they always complete. -/
def Obligations.RegisterLogicCompletes : Prop :=
  (∀ w : Word, w &&& 0xFE00707F#32 = 0x00004033#32 →
    decode w = .ok (.xor (w.extractLsb' 7 5) (w.extractLsb' 15 5) (w.extractLsb' 20 5))) ∧
  (∀ w : Word, w &&& 0xFE00707F#32 = 0x00006033#32 →
    decode w = .ok (.or (w.extractLsb' 7 5) (w.extractLsb' 15 5) (w.extractLsb' 20 5))) ∧
  (∀ w : Word, w &&& 0xFE00707F#32 = 0x00007033#32 →
    decode w = .ok (.and (w.extractLsb' 7 5) (w.extractLsb' 15 5) (w.extractLsb' 20 5))) ∧
  ∀ (s : State) (rd rs1 rs2 : RegIdx),
    (∃ t v, exec (.xor rd rs1 rs2) s = .next t ∧ s.WritesReg t rd v ∧ t.pc = s.pc + 4#32 ∧
      ∀ i, i < 32 → v.getLsbD i = ((s.readReg rs1).getLsbD i != (s.readReg rs2).getLsbD i)) ∧
    (∃ t v, exec (.or rd rs1 rs2) s = .next t ∧ s.WritesReg t rd v ∧ t.pc = s.pc + 4#32 ∧
      ∀ i, i < 32 → v.getLsbD i = ((s.readReg rs1).getLsbD i || (s.readReg rs2).getLsbD i)) ∧
    (∃ t v, exec (.and rd rs1 rs2) s = .next t ∧ s.WritesReg t rd v ∧ t.pc = s.pc + 4#32 ∧
      ∀ i, i < 32 → v.getLsbD i = ((s.readReg rs1).getLsbD i && (s.readReg rs2).getLsbD i))

/-! ## Immediate instructions -/

/-- R131, R132: encoding with `imm_I = sext_12(inst[31:20])`, result, frame; they always complete. -/
def Obligations.AddiSltiComplete : Prop :=
  (∀ w : Word, w &&& 0x0000707F#32 = 0x00000013#32 →
    decode w = .ok (.addi (w.extractLsb' 7 5) (w.extractLsb' 15 5) ((w.extractLsb' 20 12).signExtend 32))) ∧
  (∀ w : Word, w &&& 0x0000707F#32 = 0x00002013#32 →
    decode w = .ok (.slti (w.extractLsb' 7 5) (w.extractLsb' 15 5) ((w.extractLsb' 20 12).signExtend 32))) ∧
  ∀ (s : State) (rd rs1 : RegIdx) (imm : Word),
    (∃ t v, exec (.addi rd rs1 imm) s = .next t ∧ s.WritesReg t rd v ∧ t.pc = s.pc + 4#32 ∧
      v.toNat = ((s.readReg rs1).toNat + imm.toNat) % 2 ^ 32) ∧
    (∃ t v, exec (.slti rd rs1 imm) s = .next t ∧ s.WritesReg t rd v ∧ t.pc = s.pc + 4#32 ∧
      v = if (s.readReg rs1).toInt < imm.toInt then 0x00000001#32 else 0x00000000#32)

/-- SLTIU: the immediate is sign-extended, then compared unsigned (conflict C3, the spec's decision D19). -/
def Obligations.SltiuCompletes : Prop :=
  (∀ w : Word, w &&& 0x0000707F#32 = 0x00003013#32 →
    decode w = .ok (.sltiu (w.extractLsb' 7 5) (w.extractLsb' 15 5) ((w.extractLsb' 20 12).signExtend 32))) ∧
  ∀ (s : State) (rd rs1 : RegIdx) (imm : Word),
    ∃ t v, exec (.sltiu rd rs1 imm) s = .next t ∧ s.WritesReg t rd v ∧ t.pc = s.pc + 4#32 ∧
      v = if (s.readReg rs1).toNat < imm.toNat then 0x00000001#32 else 0x00000000#32

/-- R134, R135, R136: encoding with the sign-extended immediate, result bit by bit, frame; they always complete; an ANDI
whose immediate has bit 11 clear has a mask of at most eleven bits. -/
def Obligations.ImmediateLogicCompletes : Prop :=
  (∀ w : Word, w &&& 0x0000707F#32 = 0x00004013#32 →
    decode w = .ok (.xori (w.extractLsb' 7 5) (w.extractLsb' 15 5) ((w.extractLsb' 20 12).signExtend 32))) ∧
  (∀ w : Word, w &&& 0x0000707F#32 = 0x00006013#32 →
    decode w = .ok (.ori (w.extractLsb' 7 5) (w.extractLsb' 15 5) ((w.extractLsb' 20 12).signExtend 32))) ∧
  (∀ w : Word, w &&& 0x0000707F#32 = 0x00007013#32 →
    decode w = .ok (.andi (w.extractLsb' 7 5) (w.extractLsb' 15 5) ((w.extractLsb' 20 12).signExtend 32))) ∧
  ∀ (s : State) (rd rs1 : RegIdx) (imm : Word),
    (∃ t v, exec (.xori rd rs1 imm) s = .next t ∧ s.WritesReg t rd v ∧ t.pc = s.pc + 4#32 ∧
      ∀ i, i < 32 → v.getLsbD i = ((s.readReg rs1).getLsbD i != imm.getLsbD i)) ∧
    (∃ t v, exec (.ori rd rs1 imm) s = .next t ∧ s.WritesReg t rd v ∧ t.pc = s.pc + 4#32 ∧
      ∀ i, i < 32 → v.getLsbD i = ((s.readReg rs1).getLsbD i || imm.getLsbD i)) ∧
    (∃ t v, exec (.andi rd rs1 imm) s = .next t ∧ s.WritesReg t rd v ∧ t.pc = s.pc + 4#32 ∧
      ∀ i, i < 32 → v.getLsbD i = ((s.readReg rs1).getLsbD i && imm.getLsbD i)) ∧
    ∀ w : Word, decode w = .ok (.andi rd rs1 imm) → imm.getLsbD 11 = false → imm.toNat < 2 ^ 11

/-- R138, R139, R140: encoding with `shamt = inst[24:20]`, result bit by bit, frame; they always complete. -/
def Obligations.ImmediateShiftsComplete : Prop :=
  (∀ w : Word, w &&& 0xFE00707F#32 = 0x00001013#32 →
    decode w = .ok (.slli (w.extractLsb' 7 5) (w.extractLsb' 15 5) (w.extractLsb' 20 5))) ∧
  (∀ w : Word, w &&& 0xFE00707F#32 = 0x00005013#32 →
    decode w = .ok (.srli (w.extractLsb' 7 5) (w.extractLsb' 15 5) (w.extractLsb' 20 5))) ∧
  (∀ w : Word, w &&& 0xFE00707F#32 = 0x40005013#32 →
    decode w = .ok (.srai (w.extractLsb' 7 5) (w.extractLsb' 15 5) (w.extractLsb' 20 5))) ∧
  ∀ (s : State) (rd rs1 : RegIdx) (shamt : BitVec 5),
    (∃ t v, exec (.slli rd rs1 shamt) s = .next t ∧ s.WritesReg t rd v ∧ t.pc = s.pc + 4#32 ∧
      ∀ i, i < 32 → v.getLsbD i = if shamt.toNat ≤ i then (s.readReg rs1).getLsbD (i - shamt.toNat) else false) ∧
    (∃ t v, exec (.srli rd rs1 shamt) s = .next t ∧ s.WritesReg t rd v ∧ t.pc = s.pc + 4#32 ∧
      ∀ i, i < 32 → v.getLsbD i = if i + shamt.toNat ≤ 31 then (s.readReg rs1).getLsbD (i + shamt.toNat) else false) ∧
    (∃ t v, exec (.srai rd rs1 shamt) s = .next t ∧ s.WritesReg t rd v ∧ t.pc = s.pc + 4#32 ∧
      ∀ i, i < 32 → v.getLsbD i =
        if i + shamt.toNat ≤ 31 then (s.readReg rs1).getLsbD (i + shamt.toNat) else (s.readReg rs1).getLsbD 31)

/-! ## Upper-immediate instructions -/

/-- R190: every word of opcode 0110111 is an LUI with `imm_U`, whose low twelve bits are 0; it writes it and always
completes. -/
def Obligations.LuiCompletes : Prop :=
  (∀ w : Word, w &&& 0x0000007F#32 = 0x00000037#32 →
    decode w = .ok (.lui (w.extractLsb' 7 5) (w.extractLsb' 12 20 ++ 0#12))) ∧
  ∀ (s : State) (rd : RegIdx) (imm : Word),
    ∃ t, exec (.lui rd imm) s = .next t ∧ s.WritesReg t rd imm ∧ t.pc = s.pc + 4#32

/-- AUIPC: the pc of the AUIPC itself plus `imm_U`, modulo 2^32 (the spec's decisions D8 and D9); it always completes. -/
def Obligations.AuipcCompletes : Prop :=
  (∀ w : Word, w &&& 0x0000007F#32 = 0x00000017#32 →
    decode w = .ok (.auipc (w.extractLsb' 7 5) (w.extractLsb' 12 20 ++ 0#12))) ∧
  ∀ (s : State) (rd : RegIdx) (imm : Word),
    ∃ t v, exec (.auipc rd imm) s = .next t ∧ s.WritesReg t rd v ∧ t.pc = s.pc + 4#32 ∧
      v.toNat = (s.pc.toNat + imm.toNat) % 2 ^ 32

/-! ## Loads -/

/-- LB and LBU complete when the byte is in DATA_REGION: the byte, sign- or zero-extended, goes to `rd`; the frame. -/
def Obligations.ByteLoadsComplete : Prop :=
  ∀ (s : State) (rd rs1 : RegIdx) (imm : Word), s.InData (s.ea rs1 imm) 1 →
    (∃ t v, exec (.lb rd rs1 imm) s = .next t ∧ s.WritesReg t rd v ∧ t.pc = s.pc + 4#32 ∧
      s.HoldsBytes (s.ea rs1 imm).toNat 1 v ∧ UpperBits v 8 (v.getLsbD 7)) ∧
    (∃ t v, exec (.lbu rd rs1 imm) s = .next t ∧ s.WritesReg t rd v ∧ t.pc = s.pc + 4#32 ∧
      s.HoldsBytes (s.ea rs1 imm).toNat 1 v ∧ UpperBits v 8 false)

/-- LH and LHU complete at an even address with both bytes in DATA_REGION: little-endian (the spec's decision D1), sign- or
zero-extended; the frame. -/
def Obligations.HalfwordLoadsComplete : Prop :=
  ∀ (s : State) (rd rs1 : RegIdx) (imm : Word), Aligned (s.ea rs1 imm) 2 → s.InData (s.ea rs1 imm) 2 →
    (∃ t v, exec (.lh rd rs1 imm) s = .next t ∧ s.WritesReg t rd v ∧ t.pc = s.pc + 4#32 ∧
      s.HoldsBytes (s.ea rs1 imm).toNat 2 v ∧ UpperBits v 16 (v.getLsbD 15)) ∧
    (∃ t v, exec (.lhu rd rs1 imm) s = .next t ∧ s.WritesReg t rd v ∧ t.pc = s.pc + 4#32 ∧
      s.HoldsBytes (s.ea rs1 imm).toNat 2 v ∧ UpperBits v 16 false)

/-- LW completes at a multiple of 4 with all four bytes in DATA_REGION: little-endian (the spec's decision D1); the frame. -/
def Obligations.WordLoadsComplete : Prop :=
  ∀ (s : State) (rd rs1 : RegIdx) (imm : Word), Aligned (s.ea rs1 imm) 4 → s.InData (s.ea rs1 imm) 4 →
    ∃ t v, exec (.lw rd rs1 imm) s = .next t ∧ s.WritesReg t rd v ∧ t.pc = s.pc + 4#32 ∧
      s.HoldsBytes (s.ea rs1 imm).toNat 4 v

/-! ## Stores -/

/-- SB completes when the byte is in DATA_REGION: exactly that byte changes, to `x[rs2][7:0]`; the frame. -/
def Obligations.ByteStoresComplete : Prop :=
  ∀ (s : State) (rs1 rs2 : RegIdx) (imm : Word), s.InData (s.ea rs1 imm) 1 →
    ∃ t, exec (.sb rs1 rs2 imm) s = .next t ∧ s.WritesBytes t (s.ea rs1 imm).toNat 1 (s.readReg rs2) ∧
      t.pc = s.pc + 4#32

/-- SH completes at an even address with both bytes in DATA_REGION: exactly those two bytes change; the frame. -/
def Obligations.HalfwordStoresComplete : Prop :=
  ∀ (s : State) (rs1 rs2 : RegIdx) (imm : Word), Aligned (s.ea rs1 imm) 2 → s.InData (s.ea rs1 imm) 2 →
    ∃ t, exec (.sh rs1 rs2 imm) s = .next t ∧ s.WritesBytes t (s.ea rs1 imm).toNat 2 (s.readReg rs2) ∧
      t.pc = s.pc + 4#32

/-- SW completes at a multiple of 4 with all four bytes in DATA_REGION: exactly those four bytes change; the frame. -/
def Obligations.WordStoresComplete : Prop :=
  ∀ (s : State) (rs1 rs2 : RegIdx) (imm : Word), Aligned (s.ea rs1 imm) 4 → s.InData (s.ea rs1 imm) 4 →
    ∃ t, exec (.sw rs1 rs2 imm) s = .next t ∧ s.WritesBytes t (s.ea rs1 imm).toNat 4 (s.readReg rs2) ∧
      t.pc = s.pc + 4#32

/-! ## Where data accesses stop (the spec's decisions D2, D11, D13, D21) -/

/-- A misaligned LH, LHU, LW, SH or SW faults with the effective address, whatever region it is in; nothing else changes. -/
def Obligations.MisalignedAccessesFault : Prop :=
  ∀ (s : State) (r rs1 : RegIdx) (imm : Word),
    (¬ Aligned (s.ea rs1 imm) 2 →
      (∃ t, exec (.lh r rs1 imm) s = .next t ∧ s.StopsWith t (.faulted .loadAddressMisaligned (s.ea rs1 imm))) ∧
      (∃ t, exec (.lhu r rs1 imm) s = .next t ∧ s.StopsWith t (.faulted .loadAddressMisaligned (s.ea rs1 imm))) ∧
      (∃ t, exec (.sh rs1 r imm) s = .next t ∧ s.StopsWith t (.faulted .storeAddressMisaligned (s.ea rs1 imm)))) ∧
    (¬ Aligned (s.ea rs1 imm) 4 →
      (∃ t, exec (.lw r rs1 imm) s = .next t ∧ s.StopsWith t (.faulted .loadAddressMisaligned (s.ea rs1 imm))) ∧
      (∃ t, exec (.sw rs1 r imm) s = .next t ∧ s.StopsWith t (.faulted .storeAddressMisaligned (s.ea rs1 imm))))

/-- An aligned load or store with a byte in the program image is refused, even when another byte is in no region; nothing
else changes. -/
def Obligations.AccessesToTheImageRefused : Prop :=
  ∀ (s : State) (r rs1 : RegIdx) (imm : Word),
    (s.TouchesImage (s.ea rs1 imm) 1 →
      (∃ t, exec (.lb r rs1 imm) s = .next t ∧ s.StopsWith t (.refused .dataAccessToProgramImage)) ∧
      (∃ t, exec (.lbu r rs1 imm) s = .next t ∧ s.StopsWith t (.refused .dataAccessToProgramImage)) ∧
      (∃ t, exec (.sb rs1 r imm) s = .next t ∧ s.StopsWith t (.refused .dataAccessToProgramImage))) ∧
    (Aligned (s.ea rs1 imm) 2 → s.TouchesImage (s.ea rs1 imm) 2 →
      (∃ t, exec (.lh r rs1 imm) s = .next t ∧ s.StopsWith t (.refused .dataAccessToProgramImage)) ∧
      (∃ t, exec (.lhu r rs1 imm) s = .next t ∧ s.StopsWith t (.refused .dataAccessToProgramImage)) ∧
      (∃ t, exec (.sh rs1 r imm) s = .next t ∧ s.StopsWith t (.refused .dataAccessToProgramImage))) ∧
    (Aligned (s.ea rs1 imm) 4 → s.TouchesImage (s.ea rs1 imm) 4 →
      (∃ t, exec (.lw r rs1 imm) s = .next t ∧ s.StopsWith t (.refused .dataAccessToProgramImage)) ∧
      (∃ t, exec (.sw rs1 r imm) s = .next t ∧ s.StopsWith t (.refused .dataAccessToProgramImage)))

/-- An aligned load or store with no byte in the program image and one outside DATA_REGION faults with the effective
address; nothing else changes. -/
def Obligations.AccessesOutsideDataRegionFault : Prop :=
  ∀ (s : State) (r rs1 : RegIdx) (imm : Word),
    (¬ s.TouchesImage (s.ea rs1 imm) 1 → ¬ s.InData (s.ea rs1 imm) 1 →
      (∃ t, exec (.lb r rs1 imm) s = .next t ∧ s.StopsWith t (.faulted .loadAccessFault (s.ea rs1 imm))) ∧
      (∃ t, exec (.lbu r rs1 imm) s = .next t ∧ s.StopsWith t (.faulted .loadAccessFault (s.ea rs1 imm))) ∧
      (∃ t, exec (.sb rs1 r imm) s = .next t ∧ s.StopsWith t (.faulted .storeAccessFault (s.ea rs1 imm)))) ∧
    (Aligned (s.ea rs1 imm) 2 → ¬ s.TouchesImage (s.ea rs1 imm) 2 → ¬ s.InData (s.ea rs1 imm) 2 →
      (∃ t, exec (.lh r rs1 imm) s = .next t ∧ s.StopsWith t (.faulted .loadAccessFault (s.ea rs1 imm))) ∧
      (∃ t, exec (.lhu r rs1 imm) s = .next t ∧ s.StopsWith t (.faulted .loadAccessFault (s.ea rs1 imm))) ∧
      (∃ t, exec (.sh rs1 r imm) s = .next t ∧ s.StopsWith t (.faulted .storeAccessFault (s.ea rs1 imm)))) ∧
    (Aligned (s.ea rs1 imm) 4 → ¬ s.TouchesImage (s.ea rs1 imm) 4 → ¬ s.InData (s.ea rs1 imm) 4 →
      (∃ t, exec (.lw r rs1 imm) s = .next t ∧ s.StopsWith t (.faulted .loadAccessFault (s.ea rs1 imm))) ∧
      (∃ t, exec (.sw rs1 r imm) s = .next t ∧ s.StopsWith t (.faulted .storeAccessFault (s.ea rs1 imm))))

/-! ## Control transfer -/

/-- JALR and JAL complete when the target is a multiple of 4: the link register gets the address after the jump, also when
it is the base register, and the pc the target (the spec's decisions D3, D8, D14). -/
def Obligations.JumpsComplete : Prop :=
  ∀ (s : State) (rd rs1 : RegIdx) (imm : Word),
    (∀ w : Word, w.toNat = (s.readReg rs1 + imm).toNat / 2 * 2 → Aligned w 4 →
      ∃ t, exec (.jalr rd rs1 imm) s = .next t ∧ s.WritesReg t rd (s.pc + 4#32) ∧ t.pc = w) ∧
    (Aligned (s.pc + imm) 4 →
      ∃ t, exec (.jal rd imm) s = .next t ∧ s.WritesReg t rd (s.pc + 4#32) ∧ t.pc = s.pc + imm)

/-- JALR and JAL to a target that is not a multiple of 4 fault with that target (of JALR, bit 0 cleared): no link is written
and the pc stays (the spec's decision D3). -/
def Obligations.MisalignedJumpsFault : Prop :=
  ∀ (s : State) (rd rs1 : RegIdx) (imm : Word),
    (∀ w : Word, w.toNat = (s.readReg rs1 + imm).toNat / 2 * 2 → ¬ Aligned w 4 →
      ∃ t, exec (.jalr rd rs1 imm) s = .next t ∧ s.StopsWith t (.faulted .instructionAddressMisaligned w)) ∧
    (¬ Aligned (s.pc + imm) 4 →
      ∃ t, exec (.jal rd imm) s = .next t ∧ s.StopsWith t (.faulted .instructionAddressMisaligned (s.pc + imm)))

/-- A branch whose condition holds, with an aligned target, goes there; one whose condition does not hold goes to `pc + 4`
whatever its offset. Neither writes anything else (the spec's decisions D3 and D8). -/
def Obligations.BranchesComplete : Prop :=
  ∀ (s : State) (i : Instr) (a b : Word) (c : Bool) (imm : Word) (rs1 rs2 : RegIdx),
    a = s.readReg rs1 → b = s.readReg rs2 →
    ((i = .beq rs1 rs2 imm ∧ c = decide (a = b)) ∨ (i = .bne rs1 rs2 imm ∧ c = decide (a ≠ b)) ∨
      (i = .blt rs1 rs2 imm ∧ c = decide (a.toInt < b.toInt)) ∨ (i = .bge rs1 rs2 imm ∧ c = decide (b.toInt ≤ a.toInt)) ∨
      (i = .bltu rs1 rs2 imm ∧ c = decide (a.toNat < b.toNat)) ∨
      (i = .bgeu rs1 rs2 imm ∧ c = decide (b.toNat ≤ a.toNat))) →
    (c = true → Aligned (s.pc + imm) 4 → ∃ t, exec i s = .next t ∧ s.WritesNothing t ∧ t.pc = s.pc + imm) ∧
    (c = false → ∃ t, exec i s = .next t ∧ s.WritesNothing t ∧ t.pc = s.pc + 4#32)

/-- A branch whose condition holds, with a target that is not a multiple of 4, faults with the target (the spec's decision
D3). -/
def Obligations.MisalignedTakenBranchesFault : Prop :=
  ∀ (s : State) (i : Instr) (imm : Word) (rs1 rs2 : RegIdx), ¬ Aligned (s.pc + imm) 4 →
    ((i = .beq rs1 rs2 imm ∧ s.readReg rs1 = s.readReg rs2) ∨ (i = .bne rs1 rs2 imm ∧ s.readReg rs1 ≠ s.readReg rs2) ∨
      (i = .blt rs1 rs2 imm ∧ (s.readReg rs1).toInt < (s.readReg rs2).toInt) ∨
      (i = .bge rs1 rs2 imm ∧ (s.readReg rs2).toInt ≤ (s.readReg rs1).toInt) ∨
      (i = .bltu rs1 rs2 imm ∧ (s.readReg rs1).toNat < (s.readReg rs2).toNat) ∨
      (i = .bgeu rs1 rs2 imm ∧ (s.readReg rs2).toNat ≤ (s.readReg rs1).toNat)) →
    ∃ t, exec i s = .next t ∧ s.StopsWith t (.faulted .instructionAddressMisaligned (s.pc + imm))

/-- R183: the outcome table of the six conditions, and that each condition of a pair is the negation of the other. -/
def Obligations.BranchConditionTable : Prop :=
  ([(0x00000005#32, 0x00000005#32), (0x00000005#32, 0x00000006#32), (0xFFFFFFFF#32, 0x00000000#32),
    (0x00000000#32, 0xFFFFFFFF#32), (0x80000000#32, 0x7FFFFFFF#32), (0x7FFFFFFF#32, 0x80000000#32)].map
    (fun p : Word × Word => [condEq p.1 p.2, condNe p.1 p.2, condLt p.1 p.2, condGe p.1 p.2, condLtu p.1 p.2, condGeu p.1 p.2]))
    = [[true, false, false, true, false, true], [false, true, true, false, true, false],
       [false, true, true, false, false, true], [false, true, false, true, true, false],
       [false, true, true, false, false, true], [false, true, false, true, true, false]] ∧
  ∀ a b : Word, condNe a b = !(condEq a b) ∧ condGe a b = !(condLt a b) ∧ condGeu a b = !(condLtu a b)

/-- `jal x0, 0` and `beq x0, x0, 0` at an aligned pc leave the state exactly as it is (R247: they "change nothing"). -/
def Obligations.SelfJumpChangesNothing : Prop :=
  ∀ s : State, s.status = .running → s.pc ≠ s.launch.endPc → Aligned s.pc 4 →
    (s.launch.fetch s.pc = some 0x0000006F#32 ∨ s.launch.fetch s.pc = some 0x00000063#32) → step s = .next s

/-! ## Memory -/

/-- The program order of one core (the spec's decision D12): after SW completes, a load of any width within the stored word
reads the stored bytes (R56, R62, R253), for every offset from the stored address. -/
def Obligations.LoadsSeeTheStoredWord : Prop :=
  ∀ (s t u : State) (rs1 rs2 rd r : RegIdx) (imm off : Word), s.status = .running → exec (.sw rs1 rs2 imm) s = .next t →
    t.status = .running → rd ≠ 0#5 →
    (∀ k, k < 4 → t.readReg r + off = s.ea rs1 imm + BitVec.ofNat 32 k → exec (.lbu rd r off) t = .next u →
      u.status = .running ∧ u.readReg rd = ((s.readReg rs2).extractLsb' (8 * k) 8).setWidth 32) ∧
    (∀ k, k = 0 ∨ k = 2 → t.readReg r + off = s.ea rs1 imm + BitVec.ofNat 32 k → exec (.lhu rd r off) t = .next u →
      u.status = .running ∧ u.readReg rd = ((s.readReg rs2).extractLsb' (8 * k) 16).setWidth 32) ∧
    (t.readReg r + off = s.ea rs1 imm → exec (.lw rd r off) t = .next u →
      u.status = .running ∧ u.readReg rd = s.readReg rs2)

/-- Only SB, SH and SW change data memory (R3, R41), and what they change lies in DATA_REGION, outside the image. -/
def Obligations.OnlyStoresChangeMemory : Prop :=
  ∀ (i : Instr) (s t : State), exec i s = .next t →
    ((∀ a b v, i ≠ .sb a b v ∧ i ≠ .sh a b v ∧ i ≠ .sw a b v) →
      t.mem = s.mem ∧ ∀ a, t.readByte a = s.readByte a) ∧
    ∀ a, t.readByte a ≠ s.readByte a → s.launch.inDataRegion a = true ∧ s.launch.inImage a = false

/-- Two memories in canonical form that list the same bytes are the same data (the MODEL's representation, log entry 4). -/
def Obligations.EqualContentsEqualMemory : Prop :=
  ∀ m n : Memory, Memory.wf m → Memory.wf n → (∀ a, Memory.lookup m a = Memory.lookup n a) → m = n

/-! ## The assembler's pseudo-instructions and the informative excerpt -/

/-- `li`, as the MODEL transcribes it (log entry 24, PRESUMED: R99 gives the expansion "from general knowledge, not in
source"): its expansion, every instruction of which can be encoded, leaves the constant in `rd` and changes nothing else
but the pc. -/
def Obligations.LiLoadsTheConstant : Prop :=
  ∀ (s : State) (rd : RegIdx) (imm : Word), (∀ i, i ∈ expandPseudo (.li rd imm) → i.wf = true) ∧
    ∃ t, execSeq (expandPseudo (.li rd imm)) s = .next t ∧ s.WritesReg t rd imm ∧
      t.pc = s.pc + BitVec.ofNat 32 (4 * (expandPseudo (.li rd imm)).length)

/-- `call`, as the MODEL transcribes it (log entry 24, PRESUMED: R99 gives the expansion "from general knowledge, not in
source", and the model takes the distance `off` from the first instruction of the expansion): it reaches the label, at
every aligned distance, with the return address in x1. -/
def Obligations.CallReachesTheLabel : Prop :=
  ∀ (s : State) (off : Word), Aligned (s.pc + off) 4 → (∀ i, i ∈ expandPseudo (.call off) → i.wf = true) ∧
    ∃ t, execSeq (expandPseudo (.call off)) s = .next t ∧ t.pc = s.pc + off ∧ s.WritesReg t 1#5 (s.pc + 8#32)

/-- R103: the truth table the two control-logic excerpts give, for every opcode. Informative (C1, the spec's decision D27). -/
def Obligations.ControlLogicTruthTable : Prop :=
  mainDecoder 0b0000011#7 = ⟨true, 0b00#2, true, false, true, false, 0b00#2⟩ ∧
  mainDecoder 0b0110011#7 = ⟨true, 0b00#2, false, false, false, false, 0b10#2⟩ ∧
  mainDecoder 0b0010011#7 = ⟨true, 0b00#2, true, false, false, false, 0b00#2⟩ ∧
  mainDecoder 0b0100011#7 = ⟨false, 0b01#2, true, true, false, false, 0b00#2⟩ ∧
  mainDecoder 0b1100011#7 = ⟨false, 0b10#2, false, false, false, true, 0b01#2⟩ ∧
  (∀ op, op ∉ [0b0000011#7, 0b0110011#7, 0b0010011#7, 0b0100011#7, 0b1100011#7] →
    mainDecoder op = ⟨false, 0b00#2, false, false, false, false, 0b00#2⟩) ∧
  (∀ f3 f7, aluDecoder 0b00#2 f3 f7 = 0b000#3 ∧ aluDecoder 0b01#2 f3 f7 = 0b001#3 ∧
    aluDecoder 0b10#2 f3 f7 =
      if f3 = 0b000#3 ∧ f7 = 0b0100000#7 then 0b001#3
      else if f3 = 0b111#3 then 0b010#3 else if f3 = 0b110#3 then 0b011#3 else 0b000#3)
end

