-- ==== Sys2Proof/Laws/Decode.lean ====
section
/-! SUPPORT. Fields of encoded words, the bits a table row fixes, and what a successful decode says. -/

namespace Sys2Proof

/-- A word the decoder accepts matches a row, and the instruction is what the row reads from it (R86). -/
theorem decode_ok_cases (w : Word) (i : Instr) (h : decode w = .ok i) :
    ∃ r, r ∈ opRows ∧ w &&& r.mask = r.bits ∧ i = r.read w := by
  unfold decode at h
  split at h
  · rename_i r hr
    refine ⟨r, List.mem_of_find?_eq_some hr, ?_, ?_⟩
    · have := List.find?_some hr
      simpa [rowMatches] using this
    · exact (Except.ok.inj h).symm
  · cases h

/-- A word the decoder rejects matches no row, and the error names it (R92). -/
theorem decode_error_cases (w : Word) (e : DecodeError) (h : decode w = .error e) :
    e = .unlisted w ∧ ∀ r, r ∈ opRows → w &&& r.mask ≠ r.bits := by
  unfold decode at h
  split at h
  · cases h
  · rename_i hn
    refine ⟨(Except.error.inj h).symm, fun r hr hm => ?_⟩
    have := List.find?_eq_none.1 hn r hr
    simp [rowMatches, hm] at this

end Sys2Proof
end

