-- ==== Sys2Proof/Laws/State.lean ====
section
/-! SUPPORT. One small lemma per field and per update, so that no later proof unfolds a record update. -/

namespace Sys2Proof.Machine

@[simp] theorem stop_x (s : State) (st : Status) : (s.stop st).x = s.x := rfl
@[simp] theorem stop_pc (s : State) (st : Status) : (s.stop st).pc = s.pc := rfl
@[simp] theorem stop_mem (s : State) (st : Status) : (s.stop st).mem = s.mem := rfl
@[simp] theorem stop_status (s : State) (st : Status) : (s.stop st).status = st := rfl
@[simp] theorem stop_launch (s : State) (st : Status) : (s.stop st).launch = s.launch := rfl
@[simp] theorem stop_readReg (s : State) (st : Status) (r : RegIdx) : (s.stop st).readReg r = s.readReg r := rfl
@[simp] theorem stop_readByte (s : State) (st : Status) (a : Nat) : (s.stop st).readByte a = s.readByte a := rfl

@[simp] theorem setPc_x (s : State) (t : Word) : (s.setPc t).x = s.x := rfl
@[simp] theorem setPc_pc (s : State) (t : Word) : (s.setPc t).pc = t := rfl
@[simp] theorem setPc_mem (s : State) (t : Word) : (s.setPc t).mem = s.mem := rfl
@[simp] theorem setPc_status (s : State) (t : Word) : (s.setPc t).status = s.status := rfl
@[simp] theorem setPc_launch (s : State) (t : Word) : (s.setPc t).launch = s.launch := rfl
@[simp] theorem setPc_readReg (s : State) (t : Word) (r : RegIdx) : (s.setPc t).readReg r = s.readReg r := rfl
@[simp] theorem setPc_readByte (s : State) (t : Word) (a : Nat) : (s.setPc t).readByte a = s.readByte a := rfl

@[simp] theorem advance_pc (s : State) : s.advance.pc = s.pc + 4#32 := rfl
@[simp] theorem advance_mem (s : State) : s.advance.mem = s.mem := rfl
@[simp] theorem advance_status (s : State) : s.advance.status = s.status := rfl
@[simp] theorem advance_launch (s : State) : s.advance.launch = s.launch := rfl
@[simp] theorem advance_readReg (s : State) (r : RegIdx) : s.advance.readReg r = s.readReg r := rfl
@[simp] theorem advance_readByte (s : State) (a : Nat) : s.advance.readByte a = s.readByte a := rfl

@[simp] theorem writeReg_pc (s : State) (r : RegIdx) (v : Word) : (s.writeReg r v).pc = s.pc := by
  unfold State.writeReg; split <;> rfl
@[simp] theorem writeReg_mem (s : State) (r : RegIdx) (v : Word) : (s.writeReg r v).mem = s.mem := by
  unfold State.writeReg; split <;> rfl
@[simp] theorem writeReg_status (s : State) (r : RegIdx) (v : Word) : (s.writeReg r v).status = s.status := by
  unfold State.writeReg; split <;> rfl
@[simp] theorem writeReg_launch (s : State) (r : RegIdx) (v : Word) : (s.writeReg r v).launch = s.launch := by
  unfold State.writeReg; split <;> rfl
@[simp] theorem writeReg_readByte (s : State) (r : RegIdx) (v : Word) (a : Nat) :
    (s.writeReg r v).readByte a = s.readByte a := by
  unfold State.readByte; rw [writeReg_mem]

@[simp] theorem withMem_pc (s : State) (m : Memory) : ({ s with mem := m } : State).pc = s.pc := rfl
@[simp] theorem withMem_status (s : State) (m : Memory) : ({ s with mem := m } : State).status = s.status := rfl
@[simp] theorem withMem_launch (s : State) (m : Memory) : ({ s with mem := m } : State).launch = s.launch := rfl
@[simp] theorem withMem_readReg (s : State) (m : Memory) (r : RegIdx) :
    ({ s with mem := m } : State).readReg r = s.readReg r := rfl

end Sys2Proof.Machine
end

