-- ==== Sys2Proof/Laws/Memory.lean ====
section
/-! SUPPORT. The memory operations: what reads give after writes, and that the canonical form is kept. -/

namespace Sys2Proof.Machine

theorem lookup_put (m : Memory) (a : Nat) (v : Byte) (b : Nat) :
    Memory.lookup (Memory.put m a v) b = if b = a then some v else Memory.lookup m b := by
  induction m with
  | nil => simp [Memory.put, Memory.lookup]
  | cons c m ih =>
    obtain ⟨d, u⟩ := c
    unfold Memory.put
    split
    · simp [Memory.lookup]
    · split <;> simp only [Memory.lookup, ih] <;> split_ifs <;> simp_all

theorem mem_put (m : Memory) (a : Nat) (v : Byte) (c : Host.Cell) (h : c ∈ Memory.put m a v) :
    c = (a, v) ∨ c ∈ m := by
  induction m with
  | nil => simpa [Memory.put] using h
  | cons d m ih =>
    unfold Memory.put at h
    split at h
    · simpa using h
    · split at h
      · simp only [List.mem_cons] at h ⊢
        tauto
      · simp only [List.mem_cons] at h ⊢
        rcases h with h | h
        · exact .inr (.inl h)
        · rcases ih h with h | h
          · exact .inl h
          · exact .inr (.inr h)

theorem put_wf (m : Memory) (a : Nat) (v : Byte) (ha : a < 2 ^ 32) (h : Memory.wf m) : Memory.wf (Memory.put m a v) := by
  refine ⟨?_, fun c hc => ?_⟩
  · induction m with
    | nil => simp [Memory.put]
    | cons d m ih =>
      obtain ⟨b, u⟩ := d
      obtain ⟨hp, hb⟩ := h
      rw [List.pairwise_cons] at hp
      unfold Memory.put
      split
      · rename_i hab
        refine List.pairwise_cons.2 ⟨fun c hc => ?_, List.pairwise_cons.2 hp⟩
        rcases List.mem_cons.1 hc with rfl | hc
        · exact hab
        · exact lt_trans hab (hp.1 c hc)
      · split
        · rename_i hab
          subst hab
          exact List.pairwise_cons.2 ⟨fun c hc => hp.1 c hc, hp.2⟩
        · refine List.pairwise_cons.2 ⟨fun c hc => ?_, ih ⟨hp.2, fun c hc => hb c (List.mem_cons_of_mem _ hc)⟩⟩
          rcases mem_put m a v c hc with rfl | hc
          · simp only; omega
          · exact hp.1 c hc
  · rcases mem_put m a v c hc with rfl | hc
    · exact ha
    · exact h.2 c hc

theorem mem_putBytes (m : Memory) (a : Nat) (vs : List Byte) (c : Host.Cell) (h : c ∈ Memory.putBytes m a vs) :
    (a ≤ c.1 ∧ c.1 < a + vs.length) ∨ c ∈ m := by
  induction vs generalizing m a with
  | nil => exact .inr h
  | cons v vs ih =>
    rcases ih (Memory.put m a v) (a + 1) h with h | h
    · left; simp only [List.length_cons]; omega
    · rcases mem_put m a v c h with rfl | h
      · left; simp only [List.length_cons]; omega
      · exact .inr h

theorem putBytes_wf (m : Memory) (a : Nat) (vs : List Byte) (ha : a + vs.length ≤ 2 ^ 32) (h : Memory.wf m) :
    Memory.wf (Memory.putBytes m a vs) := by
  induction vs generalizing m a with
  | nil => exact h
  | cons v vs ih =>
    simp only [List.length_cons] at ha
    exact ih _ _ (by omega) (put_wf m a v (by omega) h)

/-- Inside the bytes given, the byte given; outside them, what was there. -/
theorem lookup_putBytes (m : Memory) (a : Nat) (vs : List Byte) (b : Nat) :
    Memory.lookup (Memory.putBytes m a vs) b =
      if a ≤ b ∧ b < a + vs.length then vs[b - a]? else Memory.lookup m b := by
  induction vs generalizing m a with
  | nil =>
    rw [if_neg (by simp only [List.length_nil]; omega)]
    rfl
  | cons v vs ih =>
    rw [show Memory.putBytes m a (v :: vs) = Memory.putBytes (Memory.put m a v) (a + 1) vs from rfl, ih, lookup_put]
    simp only [List.length_cons]
    by_cases hb : b = a
    · subst hb; simp
    · rw [if_neg hb]
      by_cases h : a ≤ b
      · obtain ⟨k, rfl⟩ : ∃ k, b = a + 1 + k := ⟨b - a - 1, by omega⟩
        have e : a + 1 + k - a = k + 1 := by omega
        simp only [e, List.getElem?_cons_succ, Nat.add_sub_cancel_left]
        by_cases hk : k < vs.length
        · rw [if_pos (by omega), if_pos (by omega)]
        · rw [if_neg (by omega), if_neg (by omega)]
      · rw [if_neg (by omega), if_neg (by omega)]

/-- A byte read after bytes were given values. -/
theorem readByte_putBytes (s : State) (a : Nat) (vs : List Byte) (b : Nat) :
    ({ s with mem := Memory.putBytes s.mem a vs } : State).readByte b =
      if a ≤ b ∧ b < a + vs.length then vs[b - a]?.getD (Config.unwrittenByte b) else s.readByte b := by
  unfold State.readByte
  simp only [lookup_putBytes]
  split <;> rfl

theorem reset_mem_wf : Memory.wf State.reset.mem := by
  refine ⟨List.Pairwise.nil, fun c hc => ?_⟩
  cases hc

@[simp] theorem bytesLE_length (n : Width) (v : BitVec n.bits) : (bytesLE n v).length = n.bytes := by
  cases n <;> rfl

end Sys2Proof.Machine
end

