-- ==== Sys2Proof/Laws/Ops.lean ====
section
/-! SUPPORT. For each shared operation, one lemma that says once everything it can do. -/

namespace Sys2Proof.Machine

/-! ## Registers -/

theorem readReg_writeReg (s : State) (r : RegIdx) (v : Word) (q : RegIdx) :
    (s.writeReg r v).readReg q = if q = r ∧ q ≠ 0#5 then v else s.readReg q := by
  by_cases hq : q = 0#5
  · subst hq; simp [State.readReg]
  by_cases hr : r = 0#5
  · subst hr
    rw [if_neg (by tauto)]
    simp [State.writeReg]
  have hq' : q.toNat ≠ 0 := fun h => hq (BitVec.eq_of_toNat_eq (by simpa using h))
  have hr' : r.toNat ≠ 0 := fun h => hr (BitVec.eq_of_toNat_eq (by simpa using h))
  simp only [State.readReg, State.writeReg, hq, hr, dite_false, ne_eq, not_false_eq_true, and_true,
    Vector.getElem_set]
  by_cases h : q = r
  · subst h; simp
  · rw [if_neg h, if_neg]
    intro h'
    exact h (BitVec.eq_of_toNat_eq (by omega))

@[simp] theorem result_pc (s : State) (rd : RegIdx) (v : Word) : (s.result rd v).pc = s.pc + 4#32 := by
  simp [State.result]
@[simp] theorem result_mem (s : State) (rd : RegIdx) (v : Word) : (s.result rd v).mem = s.mem := by
  simp [State.result]
@[simp] theorem result_status (s : State) (rd : RegIdx) (v : Word) : (s.result rd v).status = s.status := by
  simp [State.result]
@[simp] theorem result_launch (s : State) (rd : RegIdx) (v : Word) : (s.result rd v).launch = s.launch := by
  simp [State.result]
@[simp] theorem result_readByte (s : State) (rd : RegIdx) (v : Word) (a : Nat) :
    (s.result rd v).readByte a = s.readByte a := by
  simp [State.result]
theorem result_readReg (s : State) (rd : RegIdx) (v : Word) (q : RegIdx) :
    (s.result rd v).readReg q = if q = rd ∧ q ≠ 0#5 then v else s.readReg q := by
  simp only [State.result, advance_readReg, readReg_writeReg]

/-! ## Control transfer -/

theorem targetAligned_iff (t : Word) : targetAligned t = true ↔ t.toNat % 4 = 0 := by
  unfold targetAligned
  rw [beq_iff_eq]
  constructor
  · intro h
    have := congrArg BitVec.toNat h
    simpa using this
  · intro h
    apply BitVec.eq_of_toNat_eq
    simpa using h

theorem transfer_cases (s l : State) (t : Word) :
    (t.toNat % 4 = 0 ∧ s.transfer l t = l.setPc t) ∨
    (t.toNat % 4 ≠ 0 ∧ s.transfer l t = s.stop (.faulted .instructionAddressMisaligned t)) := by
  unfold State.transfer
  by_cases h : targetAligned t = true
  · exact .inl ⟨(targetAligned_iff t).1 h, by rw [if_pos h]⟩
  · exact .inr ⟨fun h' => h ((targetAligned_iff t).2 h'), by rw [if_neg h]; rfl⟩

/-! ## Memory access -/

theorem inData_not_inImage (l : Launch) (a : Nat) (h : l.inDataRegion a = true) : l.inImage a = false := by
  unfold Launch.inDataRegion at h
  simp only [Bool.and_eq_true, Bool.not_eq_true'] at h
  exact h.2

theorem inData_lt (l : Launch) (a : Nat) (h : l.inDataRegion a = true) : a < 2 ^ 32 := by
  unfold Launch.inDataRegion at h
  simp only [Bool.and_eq_true, decide_eq_true_eq] at h
  exact h.1.1

/-- The four outcomes of the checks of R50 and R51, in their order. -/
theorem accessCheck_cases (s : State) (mis absent : Cause) (a : Word) (n : Width) :
    (a.toNat % n.bytes ≠ 0 ∧ s.accessCheck mis absent a n = some (.faulted mis a)) ∨
    (a.toNat % n.bytes = 0 ∧ (∃ k, k < n.bytes ∧ s.launch.inImage (a.toNat + k) = true) ∧
      s.accessCheck mis absent a n = some (.refused .dataAccessToProgramImage)) ∨
    (a.toNat % n.bytes = 0 ∧ (∀ k, k < n.bytes → s.launch.inImage (a.toNat + k) = false) ∧
      (∃ k, k < n.bytes ∧ s.launch.inDataRegion (a.toNat + k) = false) ∧
      s.accessCheck mis absent a n = some (.faulted absent a)) ∨
    (a.toNat % n.bytes = 0 ∧ (∀ k, k < n.bytes → s.launch.inDataRegion (a.toNat + k) = true) ∧
      s.accessCheck mis absent a n = none) := by
  unfold State.accessCheck accessAddrs
  by_cases h1 : a.toNat % n.bytes = 0
  · by_cases h2 : ∃ k, k < n.bytes ∧ s.launch.inImage (a.toNat + k) = true
    · refine .inr (.inl ⟨h1, h2, ?_⟩)
      rw [if_neg (by simpa using h1), if_pos (by simpa using h2)]
    · by_cases h3 : ∀ k, k < n.bytes → s.launch.inDataRegion (a.toNat + k) = true
      · refine .inr (.inr (.inr ⟨h1, h3, ?_⟩))
        rw [if_neg (by simpa using h1), if_neg (by simpa using h2), if_neg (by simpa using h3)]
      · refine .inr (.inr (.inl ⟨h1, by simpa using h2, by simpa using h3, ?_⟩))
        rw [if_neg (by simpa using h1), if_neg (by simpa using h2), if_pos (by simpa using h3)]
  · exact .inl ⟨h1, if_pos (by simpa using h1)⟩

/-- Everything a load can do. -/
theorem load_cases (s : State) (n : Width) (f : BitVec n.bits → Word) (rd rs1 : RegIdx) (imm : Word) :
    (∃ st, s.accessCheck .loadAddressMisaligned .loadAccessFault (s.ea rs1 imm) n = some st ∧
      s.load n f rd rs1 imm = s.stop st) ∨
    (s.accessCheck .loadAddressMisaligned .loadAccessFault (s.ea rs1 imm) n = none ∧
      s.load n f rd rs1 imm = s.result rd (f (s.readLE (s.ea rs1 imm).toNat n))) := by
  unfold State.load State.memRead
  cases h : s.accessCheck .loadAddressMisaligned .loadAccessFault (s.ea rs1 imm) n with
  | none => exact .inr ⟨rfl, rfl⟩
  | some st => exact .inl ⟨st, rfl, rfl⟩

/-- Everything a store can do. -/
theorem store_cases (s : State) (n : Width) (v : BitVec n.bits) (rs1 : RegIdx) (imm : Word) :
    (∃ st, s.accessCheck .storeAddressMisaligned .storeAccessFault (s.ea rs1 imm) n = some st ∧
      s.store n v rs1 imm = s.stop st) ∨
    (s.accessCheck .storeAddressMisaligned .storeAccessFault (s.ea rs1 imm) n = none ∧
      s.store n v rs1 imm =
        ({ s with mem := Memory.putBytes s.mem (s.ea rs1 imm).toNat (bytesLE n v) } : State).advance) := by
  unfold State.store State.memWrite
  cases h : s.accessCheck .storeAddressMisaligned .storeAccessFault (s.ea rs1 imm) n with
  | none => exact .inr ⟨rfl, rfl⟩
  | some st => exact .inl ⟨st, rfl, rfl⟩

/-- Everything a branch can do. -/
theorem branch_cases (s : State) (c : Bool) (imm : Word) :
    (c = false ∧ s.branch c imm = s.advance) ∨
    (c = true ∧ (s.pc + imm).toNat % 4 = 0 ∧ s.branch c imm = s.setPc (s.pc + imm)) ∨
    (c = true ∧ (s.pc + imm).toNat % 4 ≠ 0 ∧
      s.branch c imm = s.stop (.faulted .instructionAddressMisaligned (s.pc + imm))) := by
  cases c with
  | false => exact .inl ⟨rfl, rfl⟩
  | true =>
    rcases transfer_cases s s (s.pc + imm) with ⟨h, e⟩ | ⟨h, e⟩
    · exact .inr (.inl ⟨rfl, h, e⟩)
    · exact .inr (.inr ⟨rfl, h, e⟩)

/-! ## The shapes of an instruction -/

/-- The five things one instruction can do to a state: end the run, write a register and go on, transfer control with a
register written or none, or store. -/
inductive Effect (s : State) : State → Prop where
  | stop (st : Status) (h : st ≠ .halted ∧ st ≠ .running)
      (hc : ∀ w, st ≠ .faulted .instructionAccessFault w ∧ st ≠ .faulted .illegalInstruction w) : Effect s (s.stop st)
  | result (rd : RegIdx) (v : Word) : Effect s (s.result rd v)
  | jump (t : Word) (h : t.toNat % 4 = 0) : Effect s (s.setPc t)
  | link (rd : RegIdx) (v t : Word) (h : t.toNat % 4 = 0) : Effect s ((s.writeReg rd v).setPc t)
  | skip : Effect s s.advance
  | store (n : Width) (v : BitVec n.bits) (a : Word)
      (h : s.accessCheck .storeAddressMisaligned .storeAccessFault a n = none) :
      Effect s ({ s with mem := Memory.putBytes s.mem a.toNat (bytesLE n v) } : State).advance

theorem accessCheck_stop (s : State) (mis absent : Cause) (a : Word) (n : Width) (st : Status)
    (h : s.accessCheck mis absent a n = some st) :
    st = .faulted mis a ∨ st = .refused .dataAccessToProgramImage ∨ st = .faulted absent a := by
  rcases accessCheck_cases s mis absent a n with ⟨_, e⟩ | ⟨_, _, e⟩ | ⟨_, _, _, e⟩ | ⟨_, _, e⟩ <;> rw [e] at h
  · exact .inl (Option.some.inj h).symm
  · exact .inr (.inl (Option.some.inj h).symm)
  · exact .inr (.inr (Option.some.inj h).symm)
  · cases h

theorem load_effect (s : State) (n : Width) (f : BitVec n.bits → Word) (rd rs1 : RegIdx) (imm : Word) :
    Effect s (s.load n f rd rs1 imm) := by
  rcases load_cases s n f rd rs1 imm with ⟨st, h, e⟩ | ⟨_, e⟩ <;> rw [e]
  · rcases accessCheck_stop _ _ _ _ _ _ h with rfl | rfl | rfl <;> exact .stop _ (by simp) (by simp)
  · exact .result _ _

theorem store_effect (s : State) (n : Width) (v : BitVec n.bits) (rs1 : RegIdx) (imm : Word) :
    Effect s (s.store n v rs1 imm) := by
  rcases store_cases s n v rs1 imm with ⟨st, h, e⟩ | ⟨h, e⟩ <;> rw [e]
  · rcases accessCheck_stop _ _ _ _ _ _ h with rfl | rfl | rfl <;> exact .stop _ (by simp) (by simp)
  · exact .store n v _ h

theorem branch_effect (s : State) (c : Bool) (imm : Word) : Effect s (s.branch c imm) := by
  rcases branch_cases s c imm with ⟨_, e⟩ | ⟨_, h, e⟩ | ⟨_, _, e⟩ <;> rw [e]
  · exact .skip
  · exact .jump _ h
  · exact .stop _ (by simp) (by simp)

theorem link_effect (s : State) (rd : RegIdx) (v t : Word) : Effect s (s.transfer (s.writeReg rd v) t) := by
  rcases transfer_cases s (s.writeReg rd v) t with ⟨h, e⟩ | ⟨_, e⟩ <;> rw [e]
  · exact .link rd v t h
  · exact .stop _ (by simp) (by simp)

/-- Every instruction answers a next state, and that state is one of the five effects. -/
theorem exec_effect (i : Instr) (s : State) : ∃ t, exec i s = .next t ∧ Effect s t := by
  cases i with
  | lb | lh | lw | lbu | lhu => exact ⟨_, rfl, load_effect ..⟩
  | sb | sh | sw => exact ⟨_, rfl, store_effect ..⟩
  | beq | bne | blt | bge | bltu | bgeu => exact ⟨_, rfl, branch_effect ..⟩
  | jal | jalr => exact ⟨_, rfl, link_effect ..⟩
  | _ => exact ⟨_, rfl, .result _ _⟩

/-! ## The step -/

theorem fetchDecode_cases (s : State) :
    (s.launch.fetch s.pc = none ∧ s.fetchDecode = .error (.faulted .instructionAccessFault s.pc)) ∨
    (∃ w e, s.launch.fetch s.pc = some w ∧ decode w = .error e ∧
      s.fetchDecode = .error (.faulted .illegalInstruction w)) ∨
    (∃ w i, s.launch.fetch s.pc = some w ∧ decode w = .ok i ∧ s.fetchDecode = .ok i) := by
  unfold State.fetchDecode
  cases hf : s.launch.fetch s.pc with
  | none => exact .inl ⟨rfl, rfl⟩
  | some w =>
    cases hd : decode w with
    | error e => exact .inr (.inl ⟨w, e, rfl, hd, by simp [hd]⟩)
    | ok i => exact .inr (.inr ⟨w, i, rfl, hd, by simp [hd]⟩)

end Sys2Proof.Machine
end

