-- ==== Sys2Proof/Laws/PerInstr.lean ====
section
/-! SUPPORT. One lemma per instruction: its word carries the fixed bits of its own row of the table (R86, R88), whatever
its operands. -/

namespace Sys2Proof

/-! ## The fixed bits of each layout -/

theorem wordR_mask (f7 : BitVec 7) (f3 : BitVec 3) (op : BitVec 7) (rd a b : BitVec 5) :
    wordR f7 f3 op rd a b &&& 0xFE00707F#32 = f7 ++ 0#10 ++ f3 ++ 0#5 ++ op := by
  apply BitVec.eq_of_getLsbD_eq
  intro i hi
  unfold wordR
  simp only [BitVec.getLsbD_and, BitVec.getLsbD_append, BitVec.getLsbD_zero]
  interval_cases i <;> simp

theorem wordI_mask (f3 : BitVec 3) (op : BitVec 7) (rd a : RegIdx) (v : Word) :
    wordI f3 op rd a v &&& 0x0000707F#32 = 0#17 ++ f3 ++ 0#5 ++ op := by
  apply BitVec.eq_of_getLsbD_eq
  intro i hi
  unfold wordI
  simp only [BitVec.getLsbD_and, BitVec.getLsbD_append, BitVec.getLsbD_zero]
  interval_cases i <;> simp

theorem wordS_mask (f3 : BitVec 3) (op : BitVec 7) (a b : RegIdx) (v : Word) :
    wordS f3 op a b v &&& 0x0000707F#32 = 0#17 ++ f3 ++ 0#5 ++ op := by
  apply BitVec.eq_of_getLsbD_eq
  intro i hi
  unfold wordS
  simp only [BitVec.getLsbD_and, BitVec.getLsbD_append, BitVec.getLsbD_zero]
  interval_cases i <;> simp

theorem wordB_mask (f3 : BitVec 3) (op : BitVec 7) (a b : RegIdx) (v : Word) :
    wordB f3 op a b v &&& 0x0000707F#32 = 0#17 ++ f3 ++ 0#5 ++ op := by
  apply BitVec.eq_of_getLsbD_eq
  intro i hi
  unfold wordB
  simp only [BitVec.getLsbD_and, BitVec.getLsbD_append, BitVec.getLsbD_zero]
  interval_cases i <;> simp

theorem wordU_mask (op : BitVec 7) (rd : RegIdx) (v : Word) :
    wordU op rd v &&& 0x0000007F#32 = 0#25 ++ op := by
  apply BitVec.eq_of_getLsbD_eq
  intro i hi
  unfold wordU
  simp only [BitVec.getLsbD_and, BitVec.getLsbD_append, BitVec.getLsbD_zero]
  interval_cases i <;> simp

theorem wordJ_mask (op : BitVec 7) (rd : RegIdx) (v : Word) :
    wordJ op rd v &&& 0x0000007F#32 = 0#25 ++ op := by
  apply BitVec.eq_of_getLsbD_eq
  intro i hi
  unfold wordJ
  simp only [BitVec.getLsbD_and, BitVec.getLsbD_append, BitVec.getLsbD_zero]
  interval_cases i <;> simp

end Sys2Proof

namespace Sys2Proof.Laws.EncodeCarriesRow

/-- The instruction's word matches the row of its own mnemonic. -/
def Statement (i : Instr) : Prop :=
  ∃ r, r ∈ opRows ∧ r.mnemonic = i.mnemonic ∧ encode i &&& r.mask = r.bits

/-- The row at a place of the table, by evaluation. -/
theorem row_mem (k : Nat) (r : OpRow) (h : opRows[k]? = some r) : r ∈ opRows := List.mem_of_getElem? h

theorem add (rd a b : RegIdx) : Statement (.add rd a b) :=
  ⟨_, row_mem 0 _ rfl, rfl, wordR_mask _ _ _ rd a b⟩

theorem sub (rd a b : RegIdx) : Statement (.sub rd a b) :=
  ⟨_, row_mem 1 _ rfl, rfl, wordR_mask _ _ _ rd a b⟩

theorem sll (rd a b : RegIdx) : Statement (.sll rd a b) :=
  ⟨_, row_mem 2 _ rfl, rfl, wordR_mask _ _ _ rd a b⟩

theorem slt (rd a b : RegIdx) : Statement (.slt rd a b) :=
  ⟨_, row_mem 3 _ rfl, rfl, wordR_mask _ _ _ rd a b⟩

theorem sltu (rd a b : RegIdx) : Statement (.sltu rd a b) :=
  ⟨_, row_mem 4 _ rfl, rfl, wordR_mask _ _ _ rd a b⟩

theorem xor (rd a b : RegIdx) : Statement (.xor rd a b) :=
  ⟨_, row_mem 5 _ rfl, rfl, wordR_mask _ _ _ rd a b⟩

theorem srl (rd a b : RegIdx) : Statement (.srl rd a b) :=
  ⟨_, row_mem 6 _ rfl, rfl, wordR_mask _ _ _ rd a b⟩

theorem sra (rd a b : RegIdx) : Statement (.sra rd a b) :=
  ⟨_, row_mem 7 _ rfl, rfl, wordR_mask _ _ _ rd a b⟩

theorem or (rd a b : RegIdx) : Statement (.or rd a b) :=
  ⟨_, row_mem 8 _ rfl, rfl, wordR_mask _ _ _ rd a b⟩

theorem and (rd a b : RegIdx) : Statement (.and rd a b) :=
  ⟨_, row_mem 9 _ rfl, rfl, wordR_mask _ _ _ rd a b⟩

theorem addi (rd a : RegIdx) (v : Word) : Statement (.addi rd a v) :=
  ⟨_, row_mem 10 _ rfl, rfl, wordI_mask _ _ rd a v⟩

theorem slti (rd a : RegIdx) (v : Word) : Statement (.slti rd a v) :=
  ⟨_, row_mem 11 _ rfl, rfl, wordI_mask _ _ rd a v⟩

theorem sltiu (rd a : RegIdx) (v : Word) : Statement (.sltiu rd a v) :=
  ⟨_, row_mem 12 _ rfl, rfl, wordI_mask _ _ rd a v⟩

theorem xori (rd a : RegIdx) (v : Word) : Statement (.xori rd a v) :=
  ⟨_, row_mem 13 _ rfl, rfl, wordI_mask _ _ rd a v⟩

theorem ori (rd a : RegIdx) (v : Word) : Statement (.ori rd a v) :=
  ⟨_, row_mem 14 _ rfl, rfl, wordI_mask _ _ rd a v⟩

theorem andi (rd a : RegIdx) (v : Word) : Statement (.andi rd a v) :=
  ⟨_, row_mem 15 _ rfl, rfl, wordI_mask _ _ rd a v⟩

theorem slli (rd a : RegIdx) (n : BitVec 5) : Statement (.slli rd a n) :=
  ⟨_, row_mem 16 _ rfl, rfl, wordR_mask _ _ _ rd a n⟩

theorem srli (rd a : RegIdx) (n : BitVec 5) : Statement (.srli rd a n) :=
  ⟨_, row_mem 17 _ rfl, rfl, wordR_mask _ _ _ rd a n⟩

theorem srai (rd a : RegIdx) (n : BitVec 5) : Statement (.srai rd a n) :=
  ⟨_, row_mem 18 _ rfl, rfl, wordR_mask _ _ _ rd a n⟩

theorem lb (rd a : RegIdx) (v : Word) : Statement (.lb rd a v) :=
  ⟨_, row_mem 19 _ rfl, rfl, wordI_mask _ _ rd a v⟩

theorem lh (rd a : RegIdx) (v : Word) : Statement (.lh rd a v) :=
  ⟨_, row_mem 20 _ rfl, rfl, wordI_mask _ _ rd a v⟩

theorem lw (rd a : RegIdx) (v : Word) : Statement (.lw rd a v) :=
  ⟨_, row_mem 21 _ rfl, rfl, wordI_mask _ _ rd a v⟩

theorem lbu (rd a : RegIdx) (v : Word) : Statement (.lbu rd a v) :=
  ⟨_, row_mem 22 _ rfl, rfl, wordI_mask _ _ rd a v⟩

theorem lhu (rd a : RegIdx) (v : Word) : Statement (.lhu rd a v) :=
  ⟨_, row_mem 23 _ rfl, rfl, wordI_mask _ _ rd a v⟩

theorem jalr (rd a : RegIdx) (v : Word) : Statement (.jalr rd a v) :=
  ⟨_, row_mem 24 _ rfl, rfl, wordI_mask _ _ rd a v⟩

theorem sb (a b : RegIdx) (v : Word) : Statement (.sb a b v) :=
  ⟨_, row_mem 25 _ rfl, rfl, wordS_mask _ _ a b v⟩

theorem sh (a b : RegIdx) (v : Word) : Statement (.sh a b v) :=
  ⟨_, row_mem 26 _ rfl, rfl, wordS_mask _ _ a b v⟩

theorem sw (a b : RegIdx) (v : Word) : Statement (.sw a b v) :=
  ⟨_, row_mem 27 _ rfl, rfl, wordS_mask _ _ a b v⟩

theorem beq (a b : RegIdx) (v : Word) : Statement (.beq a b v) :=
  ⟨_, row_mem 28 _ rfl, rfl, wordB_mask _ _ a b v⟩

theorem bne (a b : RegIdx) (v : Word) : Statement (.bne a b v) :=
  ⟨_, row_mem 29 _ rfl, rfl, wordB_mask _ _ a b v⟩

theorem blt (a b : RegIdx) (v : Word) : Statement (.blt a b v) :=
  ⟨_, row_mem 30 _ rfl, rfl, wordB_mask _ _ a b v⟩

theorem bge (a b : RegIdx) (v : Word) : Statement (.bge a b v) :=
  ⟨_, row_mem 31 _ rfl, rfl, wordB_mask _ _ a b v⟩

theorem bltu (a b : RegIdx) (v : Word) : Statement (.bltu a b v) :=
  ⟨_, row_mem 32 _ rfl, rfl, wordB_mask _ _ a b v⟩

theorem bgeu (a b : RegIdx) (v : Word) : Statement (.bgeu a b v) :=
  ⟨_, row_mem 33 _ rfl, rfl, wordB_mask _ _ a b v⟩

theorem lui (rd : RegIdx) (v : Word) : Statement (.lui rd v) :=
  ⟨_, row_mem 34 _ rfl, rfl, wordU_mask _ rd v⟩

theorem auipc (rd : RegIdx) (v : Word) : Statement (.auipc rd v) :=
  ⟨_, row_mem 35 _ rfl, rfl, wordU_mask _ rd v⟩

theorem jal (rd : RegIdx) (v : Word) : Statement (.jal rd v) :=
  ⟨_, row_mem 36 _ rfl, rfl, wordJ_mask _ rd v⟩

end Sys2Proof.Laws.EncodeCarriesRow
end

