-- ==== Sys2Proof/Laws/Step.lean ====
section
/-! SUPPORT. Everything one step can do, and the unfolding of a run. -/

namespace Sys2Proof.Machine

/-- Everything a step that answers a next state can have done: halt, fail to fetch, fail to decode, or execute. -/
theorem step_cases (s t : State) (h : step s = .next t) : s.status = .running ∧
    ((s.pc = s.launch.endPc ∧ t = s.stop .halted) ∨
     (s.pc ≠ s.launch.endPc ∧ s.launch.fetch s.pc = none ∧ t = s.stop (.faulted .instructionAccessFault s.pc)) ∨
     (s.pc ≠ s.launch.endPc ∧ ∃ w e, s.launch.fetch s.pc = some w ∧ decode w = .error e ∧
        t = s.stop (.faulted .illegalInstruction w)) ∨
     (s.pc ≠ s.launch.endPc ∧ ∃ w i, s.launch.fetch s.pc = some w ∧ decode w = .ok i ∧ exec i s = .next t)) := by
  unfold step at h
  cases hs : s.status <;> rw [hs] at h <;> simp only [reduceCtorEq] at h
  refine ⟨rfl, ?_⟩
  split at h
  · exact .inl ⟨by assumption, by cases h; rfl⟩
  · rename_i hp
    rcases fetchDecode_cases s with ⟨hf, e⟩ | ⟨w, e', hf, hd, e⟩ | ⟨w, i, hf, hd, e⟩ <;>
      rw [e] at h <;> simp only at h
    · exact .inr (.inl ⟨hp, hf, by cases h; rfl⟩)
    · exact .inr (.inr (.inl ⟨hp, w, e', hf, hd, by cases h; rfl⟩))
    · exact .inr (.inr (.inr ⟨hp, w, i, hf, hd, h⟩))

/-- A run of `k + 1` steps that answers a state is a step and a run of `k` steps. -/
theorem run_succ (k : Nat) (s t : State) (h : s.run (k + 1) = .next t) :
    ∃ u, step s = .next u ∧ u.run k = .next t := by
  unfold State.run at h
  cases hs : step s with
  | next u => rw [hs] at h; exact ⟨u, rfl, h⟩
  | fault => rw [hs] at h; cases h
  | refused => rw [hs] at h; cases h

end Sys2Proof.Machine
end

