-- ==== Sys2Proof/Tests/Slice0.lean ====
section
/-! SUPPORT. Tests by evaluation. Every expected result is from spec/95_test_vectors.md (its section is named) or from the rule
named; none is the model's own answer. The last part shows, for each statement with hypotheses, a concrete case that meets
them. -/

namespace Sys2Proof.Tests

open Sys2Proof.Machine

/-! ## The bed: one word at the pc, DATA_REGION 0x1000 to 0x1007 with given bytes, some registers set -/

def bed (pc w : Word) (regs : List (RegIdx × Word)) (bytes : List Byte) : State :=
  regs.foldl (fun s p => s.writeReg p.1 p.2)
    (State.boot ⟨pc, [w], Config.defaultEndPc pc [w], [⟨0x1000, 8⟩]⟩ pc (Vector.replicate 31 0#32)
      (Memory.putBytes [] 0x1000 bytes))

/-- After a step that goes on: a register and the pc. -/
def regAfter (s : State) (r : RegIdx) : Option (Word × Word) :=
  match step s with
  | .next t => if t.status = .running then some (t.readReg r, t.pc) else none
  | _       => none

/-- After a step that goes on: the data bytes 0x1000 to 0x1007 and the pc. -/
def bytesAfter (s : State) : Option (List Byte × Word) :=
  match step s with
  | .next t => if t.status = .running then some ((List.range 8).map (fun k => t.readByte (0x1000 + k)), t.pc) else none
  | _       => none

/-- After any step: the status and the pc. -/
def statusAfter (s : State) : Option (Status × Word) :=
  match step s with
  | .next t => some (t.status, t.pc)
  | _       => none

/-- The state `exec` answers. -/
def after (i : Instr) (s : State) : State :=
  match exec i s with
  | .next t => t
  | _       => s

/-- The data of section 2.4. -/
def loadBytes : List Byte := [0x80, 0xFF, 0x7F, 0x01, 0x44, 0x33, 0x22, 0x91]

/-- The data of section 2.6. -/
def storeBytes : List Byte := [0xEE, 0xEE, 0xEE, 0xEE, 0xEE, 0xEE, 0xEE, 0xEE]

/-! ## WellFormed: each check refuses an ill-formed term (R85, R241) -/

theorem test_wf_refuses_i_too_large : (Instr.addi 5#5 6#5 2048#32).wf = false := by decide
theorem test_wf_refuses_s_too_small : (Instr.sw 6#5 7#5 0xFFFFF7FF#32).wf = false := by decide
theorem test_wf_refuses_b_odd : (Instr.beq 6#5 7#5 1#32).wf = false := by decide
theorem test_wf_refuses_b_too_large : (Instr.beq 6#5 7#5 4096#32).wf = false := by decide
theorem test_wf_refuses_u_low_bits : (Instr.lui 5#5 1#32).wf = false := by decide
theorem test_wf_refuses_j_odd : (Instr.jal 1#5 1#32).wf = false := by decide
theorem test_wf_refuses_j_too_large : (Instr.jal 1#5 1048576#32).wf = false := by decide
theorem test_wf_refuses_prog_base : Launch.wf ⟨2#32, [], 0#32, []⟩ = false := by decide
theorem test_wf_refuses_end_pc : Launch.wf ⟨0#32, [], 2#32, []⟩ = false := by decide
theorem test_wf_refuses_wrapping_image : Launch.wf ⟨0xFFFFFFFC#32, [0#32, 0#32], 0#32, []⟩ = false := by decide
theorem test_inv_refuses_unsorted_memory : ¬ Memory.wf [(1, 0#8), (0, 0#8)] := by decide
theorem test_inv_refuses_memory_outside : ¬ Memory.wf [(2 ^ 32, 0#8)] := by decide

/-! ## Decode: for every constructor a word the spec writes out -/

/-- section 2.1. -/
theorem test_decode_register_register :
    decode 0x007302B3#32 = .ok (.add 5#5 6#5 7#5) ∧
    decode 0x407302B3#32 = .ok (.sub 5#5 6#5 7#5) ∧
    decode 0x007312B3#32 = .ok (.sll 5#5 6#5 7#5) ∧
    decode 0x007322B3#32 = .ok (.slt 5#5 6#5 7#5) ∧
    decode 0x007332B3#32 = .ok (.sltu 5#5 6#5 7#5) ∧
    decode 0x007342B3#32 = .ok (.xor 5#5 6#5 7#5) ∧
    decode 0x007352B3#32 = .ok (.srl 5#5 6#5 7#5) ∧
    decode 0x407352B3#32 = .ok (.sra 5#5 6#5 7#5) ∧
    decode 0x007362B3#32 = .ok (.or 5#5 6#5 7#5) ∧
    decode 0x007372B3#32 = .ok (.and 5#5 6#5 7#5) := by
  decide

/-- section 2.1: the encoder gives the same words. -/
theorem test_encode_register_register :
    encode (.add 5#5 6#5 7#5) = 0x007302B3#32 ∧
    encode (.sub 5#5 6#5 7#5) = 0x407302B3#32 ∧
    encode (.sll 5#5 6#5 7#5) = 0x007312B3#32 ∧
    encode (.slt 5#5 6#5 7#5) = 0x007322B3#32 ∧
    encode (.sltu 5#5 6#5 7#5) = 0x007332B3#32 ∧
    encode (.xor 5#5 6#5 7#5) = 0x007342B3#32 ∧
    encode (.srl 5#5 6#5 7#5) = 0x007352B3#32 ∧
    encode (.sra 5#5 6#5 7#5) = 0x407352B3#32 ∧
    encode (.or 5#5 6#5 7#5) = 0x007362B3#32 ∧
    encode (.and 5#5 6#5 7#5) = 0x007372B3#32 := by
  decide

/-- sections 2.2 and 2.3. -/
theorem test_decode_immediate :
    decode 0x80030293#32 = .ok (.addi 5#5 6#5 0xFFFFF800#32) ∧
    decode 0x7FF32293#32 = .ok (.slti 5#5 6#5 0x7FF#32) ∧
    decode 0x80033293#32 = .ok (.sltiu 5#5 6#5 0xFFFFF800#32) ∧
    decode 0x0FF34293#32 = .ok (.xori 5#5 6#5 0xFF#32) ∧
    decode 0x0F036293#32 = .ok (.ori 5#5 6#5 0xF0#32) ∧
    decode 0xFF037293#32 = .ok (.andi 5#5 6#5 0xFFFFFFF0#32) ∧
    decode 0x01F31293#32 = .ok (.slli 5#5 6#5 31#5) ∧
    decode 0x00435293#32 = .ok (.srli 5#5 6#5 4#5) ∧
    decode 0x41F35293#32 = .ok (.srai 5#5 6#5 31#5) := by
  decide

/-- sections 2.2 and 2.3: the encoder gives the same words. -/
theorem test_encode_immediate :
    encode (.addi 5#5 6#5 0xFFFFF800#32) = 0x80030293#32 ∧
    encode (.slti 5#5 6#5 0x7FF#32) = 0x7FF32293#32 ∧
    encode (.sltiu 5#5 6#5 0xFFFFF800#32) = 0x80033293#32 ∧
    encode (.xori 5#5 6#5 0xFF#32) = 0x0FF34293#32 ∧
    encode (.ori 5#5 6#5 0xF0#32) = 0x0F036293#32 ∧
    encode (.andi 5#5 6#5 0xFFFFFFF0#32) = 0xFF037293#32 ∧
    encode (.slli 5#5 6#5 31#5) = 0x01F31293#32 ∧
    encode (.srli 5#5 6#5 4#5) = 0x00435293#32 ∧
    encode (.srai 5#5 6#5 31#5) = 0x41F35293#32 := by
  decide

/-- sections 2.4 and 2.5. -/
theorem test_decode_loads_and_jalr :
    decode 0xFFF30283#32 = .ok (.lb 5#5 6#5 0xFFFFFFFF#32) ∧
    decode 0x00231283#32 = .ok (.lh 5#5 6#5 2#32) ∧
    decode 0x80032283#32 = .ok (.lw 5#5 6#5 0xFFFFF800#32) ∧
    decode 0x00734283#32 = .ok (.lbu 5#5 6#5 7#32) ∧
    decode 0x00635283#32 = .ok (.lhu 5#5 6#5 6#32) ∧
    decode 0x00830367#32 = .ok (.jalr 6#5 6#5 8#32) := by
  decide

/-- sections 2.4 and 2.5: the encoder gives the same words. -/
theorem test_encode_loads_and_jalr :
    encode (.lb 5#5 6#5 0xFFFFFFFF#32) = 0xFFF30283#32 ∧
    encode (.lh 5#5 6#5 2#32) = 0x00231283#32 ∧
    encode (.lw 5#5 6#5 0xFFFFF800#32) = 0x80032283#32 ∧
    encode (.lbu 5#5 6#5 7#32) = 0x00734283#32 ∧
    encode (.lhu 5#5 6#5 6#32) = 0x00635283#32 ∧
    encode (.jalr 6#5 6#5 8#32) = 0x00830367#32 := by
  decide

/-- section 2.6. -/
theorem test_decode_stores :
    decode 0x007301A3#32 = .ok (.sb 6#5 7#5 3#32) ∧
    decode 0x00731323#32 = .ok (.sh 6#5 7#5 6#32) ∧
    decode 0x7E732FA3#32 = .ok (.sw 6#5 7#5 0x7FF#32) := by
  decide

/-- section 2.6: the encoder gives the same words. -/
theorem test_encode_stores :
    encode (.sb 6#5 7#5 3#32) = 0x007301A3#32 ∧
    encode (.sh 6#5 7#5 6#32) = 0x00731323#32 ∧
    encode (.sw 6#5 7#5 0x7FF#32) = 0x7E732FA3#32 := by
  decide

/-- section 2.7. -/
theorem test_decode_branches :
    decode 0x80730063#32 = .ok (.beq 6#5 7#5 0xFFFFF000#32) ∧
    decode 0x00731863#32 = .ok (.bne 6#5 7#5 16#32) ∧
    decode 0x00734863#32 = .ok (.blt 6#5 7#5 16#32) ∧
    decode 0x00735863#32 = .ok (.bge 6#5 7#5 16#32) ∧
    decode 0x00736863#32 = .ok (.bltu 6#5 7#5 16#32) ∧
    decode 0x00737863#32 = .ok (.bgeu 6#5 7#5 16#32) := by
  decide

/-- section 2.7: the encoder gives the same words. -/
theorem test_encode_branches :
    encode (.beq 6#5 7#5 0xFFFFF000#32) = 0x80730063#32 ∧
    encode (.bne 6#5 7#5 16#32) = 0x00731863#32 ∧
    encode (.blt 6#5 7#5 16#32) = 0x00734863#32 ∧
    encode (.bge 6#5 7#5 16#32) = 0x00735863#32 ∧
    encode (.bltu 6#5 7#5 16#32) = 0x00736863#32 ∧
    encode (.bgeu 6#5 7#5 16#32) = 0x00737863#32 := by
  decide

/-- section 2.8. -/
theorem test_decode_upper_and_jal :
    decode 0x123452B7#32 = .ok (.lui 5#5 0x12345000#32) ∧
    decode 0xFFFFF297#32 = .ok (.auipc 5#5 0xFFFFF000#32) ∧
    decode 0x7FDFF0EF#32 = .ok (.jal 1#5 0xFFFFC#32) := by
  decide

/-- section 2.8: the encoder gives the same words. -/
theorem test_encode_upper_and_jal :
    encode (.lui 5#5 0x12345000#32) = 0x123452B7#32 ∧
    encode (.auipc 5#5 0xFFFFF000#32) = 0xFFFFF297#32 ∧
    encode (.jal 1#5 0xFFFFC#32) = 0x7FDFF0EF#32 := by
  decide

/-! ## Immediates, one group of bits at a time (section 2.9) -/

theorem test_imm_i :
    [0x00100013#32, 0x40000013#32, 0x80000013#32, 0xFFF00013#32, 0x7FF00013#32].map immI =
      [0x00000001#32, 0x00000400#32, 0xFFFFF800#32, 0xFFFFFFFF#32, 0x000007FF#32] := by
  decide

theorem test_imm_s :
    [0x000000A3#32, 0x00000823#32, 0x02000023#32, 0x40000023#32, 0x80000023#32, 0xFE000FA3#32].map immS =
      [0x00000001#32, 0x00000010#32, 0x00000020#32, 0x00000400#32, 0xFFFFF800#32, 0xFFFFFFFF#32] := by
  decide

theorem test_imm_b :
    [0x00000163#32, 0x00000863#32, 0x02000063#32, 0x40000063#32, 0x000000E3#32, 0x80000063#32, 0xFE000FE3#32].map immB =
      [0x00000002#32, 0x00000010#32, 0x00000020#32, 0x00000400#32, 0x00000800#32, 0xFFFFF000#32, 0xFFFFFFFE#32] := by
  decide

theorem test_imm_u :
    [0x00001037#32, 0x80000037#32, 0xFFFFF037#32].map immU =
      [0x00001000#32, 0x80000000#32, 0xFFFFF000#32] := by
  decide

theorem test_imm_j :
    [0x0020006F#32, 0x4000006F#32, 0x0010006F#32, 0x0000106F#32, 0x0008006F#32, 0x8000006F#32, 0xFFFFF06F#32].map immJ =
      [0x00000002#32, 0x00000400#32, 0x00000800#32, 0x00001000#32, 0x00080000#32, 0xFFF00000#32, 0xFFFFFFFE#32] := by
  decide

/-- Section 2.10: none of these words is an instruction. -/
theorem test_decode_rejects : [0x00000000#32, 0xFFFFFFFF#32, 0x00000073#32, 0x00100073#32, 0x0FF0000F#32,
    0x0000100F#32, 0x30200073#32, 0x10500073#32, 0xC0002573#32, 0x00004501#32, 0x1005272F#32, 0x00052507#32,
    0x027302B3#32, 0x00033283#32, 0x0000001B#32].filterMap (fun w => (decode w).toOption) = [] := by
  decide

/-- R45: `addi x1, x0, 10` as bytes is 93 00 A0 00; three bytes are no instruction. -/
theorem test_decode_bytes : decodeBytes [0x93#8, 0x00#8, 0xA0#8, 0x00#8, 0x13#8] = .ok (.addi 1#5 0#5 10#32, [0x13#8]) ∧
    decodeBytes [0x93#8, 0x00#8, 0xA0#8] = .error .truncated ∧
    encodeBytes (.addi 1#5 0#5 10#32) = [0x93#8, 0x00#8, 0xA0#8, 0x00#8] := by
  decide

/-! ## One step of each instruction (sections 2.1 to 2.8) -/

theorem test_add_wraps :
    regAfter (bed 0x00000100#32 0x007302B3#32 [(6#5, 0xFFFFFFFF#32), (7#5, 0x00000001#32)] []) 5#5 = some (0x00000000#32, 0x00000104#32) := by
  decide

theorem test_add_to_its_source :
    regAfter (bed 0x00000100#32 0x005282B3#32 [(5#5, 0x00000007#32)] []) 5#5 = some (0x0000000E#32, 0x00000104#32) := by
  decide

theorem test_sub_order :
    regAfter (bed 0x00000100#32 0x407302B3#32 [(6#5, 0x00000000#32), (7#5, 0x00000001#32)] []) 5#5 = some (0xFFFFFFFF#32, 0x00000104#32) := by
  decide

theorem test_sub_overflow :
    regAfter (bed 0x00000100#32 0x407302B3#32 [(6#5, 0x80000000#32), (7#5, 0x00000001#32)] []) 5#5 = some (0x7FFFFFFF#32, 0x00000104#32) := by
  decide

theorem test_sll_by_31 :
    regAfter (bed 0x00000100#32 0x007312B3#32 [(6#5, 0x00000001#32), (7#5, 0x0000001F#32)] []) 5#5 = some (0x80000000#32, 0x00000104#32) := by
  decide

theorem test_sll_takes_five_bits :
    regAfter (bed 0x00000100#32 0x007312B3#32 [(6#5, 0x12345678#32), (7#5, 0xFFFFFFE4#32)] []) 5#5 = some (0x23456780#32, 0x00000104#32) := by
  decide

theorem test_slt_signed :
    regAfter (bed 0x00000100#32 0x007322B3#32 [(6#5, 0x80000000#32), (7#5, 0x7FFFFFFF#32)] []) 5#5 = some (0x00000001#32, 0x00000104#32) := by
  decide

theorem test_slt_equal :
    regAfter (bed 0x00000100#32 0x007322B3#32 [(6#5, 0x00000005#32), (7#5, 0x00000005#32)] []) 5#5 = some (0x00000000#32, 0x00000104#32) := by
  decide

theorem test_sltu_unsigned :
    regAfter (bed 0x00000100#32 0x007332B3#32 [(6#5, 0x80000000#32), (7#5, 0x7FFFFFFF#32)] []) 5#5 = some (0x00000000#32, 0x00000104#32) := by
  decide

theorem test_sltu_x0 :
    regAfter (bed 0x00000100#32 0x007032B3#32 [(7#5, 0x00000009#32)] []) 5#5 = some (0x00000001#32, 0x00000104#32) := by
  decide

theorem test_xor :
    regAfter (bed 0x00000100#32 0x007342B3#32 [(6#5, 0xFF00FF00#32), (7#5, 0x0FF00FF0#32)] []) 5#5 = some (0xF0F0F0F0#32, 0x00000104#32) := by
  decide

theorem test_srl_zeros :
    regAfter (bed 0x00000100#32 0x007352B3#32 [(6#5, 0x80000000#32), (7#5, 0x00000001#32)] []) 5#5 = some (0x40000000#32, 0x00000104#32) := by
  decide

theorem test_srl_takes_five_bits :
    regAfter (bed 0x00000100#32 0x007352B3#32 [(6#5, 0x12345678#32), (7#5, 0x00000024#32)] []) 5#5 = some (0x01234567#32, 0x00000104#32) := by
  decide

theorem test_sra_sign :
    regAfter (bed 0x00000100#32 0x407352B3#32 [(6#5, 0x87654321#32), (7#5, 0x00000004#32)] []) 5#5 = some (0xF8765432#32, 0x00000104#32) := by
  decide

theorem test_sra_takes_five_bits :
    regAfter (bed 0x00000100#32 0x407352B3#32 [(6#5, 0xFFFFFFFF#32), (7#5, 0x00000020#32)] []) 5#5 = some (0xFFFFFFFF#32, 0x00000104#32) := by
  decide

theorem test_or :
    regAfter (bed 0x00000100#32 0x007362B3#32 [(6#5, 0xFF00FF00#32), (7#5, 0x0FF00FF0#32)] []) 5#5 = some (0xFFF0FFF0#32, 0x00000104#32) := by
  decide

theorem test_and :
    regAfter (bed 0x00000100#32 0x007372B3#32 [(6#5, 0xFF00FF00#32), (7#5, 0x0FF00FF0#32)] []) 5#5 = some (0x0F000F00#32, 0x00000104#32) := by
  decide

theorem test_addi_negative :
    regAfter (bed 0x00000100#32 0x80030293#32 [(6#5, 0x80000000#32)] []) 5#5 = some (0x7FFFF800#32, 0x00000104#32) := by
  decide

theorem test_addi_wraps :
    regAfter (bed 0x00000100#32 0x7FF30293#32 [(6#5, 0x7FFFF801#32)] []) 5#5 = some (0x80000000#32, 0x00000104#32) := by
  decide

theorem test_slti_true :
    regAfter (bed 0x00000100#32 0xFFF32293#32 [(6#5, 0xFFFFFFFE#32)] []) 5#5 = some (0x00000001#32, 0x00000104#32) := by
  decide

theorem test_slti_false :
    regAfter (bed 0x00000100#32 0xFFF32293#32 [(6#5, 0x00000000#32)] []) 5#5 = some (0x00000000#32, 0x00000104#32) := by
  decide

theorem test_sltiu_sign_extends :
    regAfter (bed 0x00000100#32 0xFFF33293#32 [(6#5, 0x00001000#32)] []) 5#5 = some (0x00000001#32, 0x00000104#32) := by
  decide

theorem test_sltiu_unsigned :
    regAfter (bed 0x00000100#32 0x80033293#32 [(6#5, 0xFFFFF7FF#32)] []) 5#5 = some (0x00000001#32, 0x00000104#32) := by
  decide

theorem test_xori_complement :
    regAfter (bed 0x00000100#32 0xFFF34293#32 [(6#5, 0x12345678#32)] []) 5#5 = some (0xEDCBA987#32, 0x00000104#32) := by
  decide

theorem test_ori_negative :
    regAfter (bed 0x00000100#32 0x80036293#32 [(6#5, 0x0000000F#32)] []) 5#5 = some (0xFFFFF80F#32, 0x00000104#32) := by
  decide

theorem test_andi_negative :
    regAfter (bed 0x00000100#32 0xFF037293#32 [(6#5, 0x12345678#32)] []) 5#5 = some (0x12345670#32, 0x00000104#32) := by
  decide

theorem test_slli :
    regAfter (bed 0x00000100#32 0x00431293#32 [(6#5, 0xF2345678#32)] []) 5#5 = some (0x23456780#32, 0x00000104#32) := by
  decide

theorem test_srli :
    regAfter (bed 0x00000100#32 0x00435293#32 [(6#5, 0x87654321#32)] []) 5#5 = some (0x08765432#32, 0x00000104#32) := by
  decide

theorem test_srai :
    regAfter (bed 0x00000100#32 0x40435293#32 [(6#5, 0x87654321#32)] []) 5#5 = some (0xF8765432#32, 0x00000104#32) := by
  decide

theorem test_lb_sign :
    regAfter (bed 0x00000100#32 0x00730283#32 [(6#5, 0x00001000#32)] loadBytes) 5#5 = some (0xFFFFFF91#32, 0x00000104#32) := by
  decide

theorem test_lb_negative_offset :
    regAfter (bed 0x00000100#32 0xFFF30283#32 [(6#5, 0x00001002#32)] loadBytes) 5#5 = some (0xFFFFFFFF#32, 0x00000104#32) := by
  decide

theorem test_lbu :
    regAfter (bed 0x00000100#32 0x00734283#32 [(6#5, 0x00001000#32)] loadBytes) 5#5 = some (0x00000091#32, 0x00000104#32) := by
  decide

theorem test_lh_sign :
    regAfter (bed 0x00000100#32 0x00631283#32 [(6#5, 0x00001000#32)] loadBytes) 5#5 = some (0xFFFF9122#32, 0x00000104#32) := by
  decide

theorem test_lh_positive :
    regAfter (bed 0x00000100#32 0x00231283#32 [(6#5, 0x00001000#32)] loadBytes) 5#5 = some (0x0000017F#32, 0x00000104#32) := by
  decide

theorem test_lhu :
    regAfter (bed 0x00000100#32 0x00635283#32 [(6#5, 0x00001000#32)] loadBytes) 5#5 = some (0x00009122#32, 0x00000104#32) := by
  decide

theorem test_lw_little_endian :
    regAfter (bed 0x00000100#32 0x00432283#32 [(6#5, 0x00001000#32)] loadBytes) 5#5 = some (0x91223344#32, 0x00000104#32) := by
  decide

theorem test_lw_to_its_base :
    regAfter (bed 0x00000100#32 0x00032303#32 [(6#5, 0x00001000#32)] loadBytes) 6#5 = some (0x017FFF80#32, 0x00000104#32) := by
  decide

theorem test_jalr_clears_bit_0 :
    regAfter (bed 0x00000100#32 0x004300E7#32 [(6#5, 0x00000201#32)] []) 1#5 = some (0x00000104#32, 0x00000204#32) := by
  decide

theorem test_jalr_to_its_base :
    regAfter (bed 0x00000100#32 0x00830367#32 [(6#5, 0x00002000#32)] []) 6#5 = some (0x00000104#32, 0x00002008#32) := by
  decide

theorem test_jal_backward :
    regAfter (bed 0x00100000#32 0x800000EF#32 [] []) 1#5 = some (0x00100004#32, 0x00000000#32) := by
  decide

theorem test_jal_link_wraps :
    regAfter (bed 0xFFFFFFFC#32 0x008000EF#32 [] []) 1#5 = some (0x00000000#32, 0x00000004#32) := by
  decide

theorem test_lui :
    regAfter (bed 0x00000100#32 0x123452B7#32 [(5#5, 0xFFFFFFFF#32)] []) 5#5 = some (0x12345000#32, 0x00000104#32) := by
  decide

theorem test_lui_x0 :
    regAfter (bed 0x00000100#32 0x12345037#32 [] []) 0#5 = some (0x00000000#32, 0x00000104#32) := by
  decide

theorem test_auipc :
    regAfter (bed 0x00000100#32 0x12345297#32 [] []) 5#5 = some (0x12345100#32, 0x00000104#32) := by
  decide

theorem test_auipc_wraps :
    regAfter (bed 0x00001000#32 0xFFFFF297#32 [] []) 5#5 = some (0x00000000#32, 0x00001004#32) := by
  decide

theorem test_sb :
    bytesAfter (bed 0x100#32 0x007301A3#32 [(6#5, 0x00001000#32), (7#5, 0x123456AB#32)] storeBytes) =
      some ([0xEE, 0xEE, 0xEE, 0xAB, 0xEE, 0xEE, 0xEE, 0xEE], 0x104#32) := by
  decide

theorem test_sh :
    bytesAfter (bed 0x100#32 0x00731123#32 [(6#5, 0x00001000#32), (7#5, 0x1234BEEF#32)] storeBytes) =
      some ([0xEE, 0xEE, 0xEF, 0xBE, 0xEE, 0xEE, 0xEE, 0xEE], 0x104#32) := by
  decide

theorem test_sw_negative_offset :
    bytesAfter (bed 0x100#32 0xFE732E23#32 [(6#5, 0x00001008#32), (7#5, 0x11223344#32)] storeBytes) =
      some ([0xEE, 0xEE, 0xEE, 0xEE, 0x44, 0x33, 0x22, 0x11], 0x104#32) := by
  decide

theorem test_sw_of_its_base :
    bytesAfter (bed 0x100#32 0x00632023#32 [(6#5, 0x00001000#32)] storeBytes) =
      some ([0x00, 0x10, 0x00, 0x00, 0xEE, 0xEE, 0xEE, 0xEE], 0x104#32) := by
  decide

theorem test_beq_taken :
    regAfter (bed 0x00000100#32 0x00730863#32 [(6#5, 0x00000005#32), (7#5, 0x00000005#32)] []) 6#5 = some (0x00000005#32, 0x00000110#32) := by
  decide

theorem test_beq_not_taken :
    regAfter (bed 0x00000100#32 0x00730863#32 [(6#5, 0x00000005#32), (7#5, 0x00000006#32)] []) 6#5 = some (0x00000005#32, 0x00000104#32) := by
  decide

theorem test_bne_taken :
    regAfter (bed 0x00000100#32 0x00731863#32 [(6#5, 0x00000005#32), (7#5, 0x00000006#32)] []) 6#5 = some (0x00000005#32, 0x00000110#32) := by
  decide

theorem test_bne_not_taken :
    regAfter (bed 0x00000100#32 0x00731863#32 [(6#5, 0x00000005#32), (7#5, 0x00000005#32)] []) 6#5 = some (0x00000005#32, 0x00000104#32) := by
  decide

theorem test_blt_taken :
    regAfter (bed 0x00000100#32 0x00734863#32 [(6#5, 0x80000000#32), (7#5, 0x7FFFFFFF#32)] []) 6#5 = some (0x80000000#32, 0x00000110#32) := by
  decide

theorem test_blt_not_taken :
    regAfter (bed 0x00000100#32 0x00734863#32 [(6#5, 0x00000000#32), (7#5, 0xFFFFFFFF#32)] []) 6#5 = some (0x00000000#32, 0x00000104#32) := by
  decide

theorem test_bge_taken :
    regAfter (bed 0x00000100#32 0x00735863#32 [(6#5, 0x7FFFFFFF#32), (7#5, 0x80000000#32)] []) 6#5 = some (0x7FFFFFFF#32, 0x00000110#32) := by
  decide

theorem test_bge_not_taken :
    regAfter (bed 0x00000100#32 0x00735863#32 [(6#5, 0xFFFFFFFF#32), (7#5, 0x00000000#32)] []) 6#5 = some (0xFFFFFFFF#32, 0x00000104#32) := by
  decide

theorem test_bltu_taken :
    regAfter (bed 0x00000100#32 0x00736863#32 [(6#5, 0x7FFFFFFF#32), (7#5, 0x80000000#32)] []) 6#5 = some (0x7FFFFFFF#32, 0x00000110#32) := by
  decide

theorem test_bltu_not_taken :
    regAfter (bed 0x00000100#32 0x00736863#32 [(6#5, 0xFFFFFFFF#32), (7#5, 0x00000000#32)] []) 6#5 = some (0xFFFFFFFF#32, 0x00000104#32) := by
  decide

theorem test_bgeu_taken :
    regAfter (bed 0x00000100#32 0x00737863#32 [(6#5, 0x00000005#32), (7#5, 0x00000005#32)] []) 6#5 = some (0x00000005#32, 0x00000110#32) := by
  decide

theorem test_bgeu_not_taken :
    regAfter (bed 0x00000100#32 0x00737863#32 [(6#5, 0x00000000#32), (7#5, 0xFFFFFFFF#32)] []) 6#5 = some (0x00000000#32, 0x00000104#32) := by
  decide

/-! ## Where a step stops (sections 2.1, 2.4 to 2.7, 1.2; 60_exceptions.md) -/

theorem test_stop_unlisted_word :
    statusAfter (bed 0x100#32 0x407372B3#32 [(6#5, 0x00000001#32)] []) = some (.faulted .illegalInstruction 0x407372B3#32, 0x100#32) := by
  decide

/-- Misaligned and outside the region: the misaligned cause wins (R212). -/
theorem test_stop_lw_misaligned_wins :
    statusAfter (bed 0x100#32 0x00932283#32 [(6#5, 0x00001000#32)] loadBytes) = some (.faulted .loadAddressMisaligned 0x00001009#32, 0x100#32) := by
  decide

theorem test_stop_lw_to_x0 :
    statusAfter (bed 0x100#32 0x00832003#32 [(6#5, 0x00001000#32)] loadBytes) = some (.faulted .loadAccessFault 0x00001008#32, 0x100#32) := by
  decide

theorem test_stop_sw_misaligned :
    statusAfter (bed 0x100#32 0x00732123#32 [(6#5, 0x00001000#32)] loadBytes) = some (.faulted .storeAddressMisaligned 0x00001002#32, 0x100#32) := by
  decide

theorem test_stop_sb_below_region :
    statusAfter (bed 0x100#32 0xFE730FA3#32 [(6#5, 0x00001000#32)] loadBytes) = some (.faulted .storeAccessFault 0x00000FFF#32, 0x100#32) := by
  decide

theorem test_stop_jalr_bit_1 :
    statusAfter (bed 0x100#32 0x003300E7#32 [(6#5, 0x00000200#32)] []) = some (.faulted .instructionAddressMisaligned 0x00000202#32, 0x100#32) := by
  decide

theorem test_stop_beq_taken :
    statusAfter (bed 0x100#32 0x00730163#32 [(6#5, 0x00000001#32), (7#5, 0x00000001#32)] []) = some (.faulted .instructionAddressMisaligned 0x00000102#32, 0x100#32) := by
  decide

/-- R58: `lw x5, 0x100(x0)` reads its own word. -/
theorem test_stop_lw_of_the_image :
    statusAfter (bed 0x100#32 0x10002283#32 [] []) = some (.refused .dataAccessToProgramImage, 0x100#32) := by
  decide

/-- R206: no word of the image at the pc. -/
theorem test_stop_fetch_outside :
    statusAfter ((bed 0x100#32 0x13#32 [] []).setPc 0x200#32) = some (.faulted .instructionAccessFault 0x200#32, 0x200#32) := by
  decide

/-- R246: the pc is END_PC. -/
theorem test_stop_at_end : statusAfter ((bed 0x100#32 0x13#32 [] []).setPc 0x104#32) = some (.halted, 0x104#32) := by
  decide

/-- R245: the run of `State.reset` ends at its first step (log entry 8). -/
theorem test_reset_halts : State.reset.completesIn 1 (State.reset.stop .halted) := ⟨rfl, rfl⟩

theorem test_with_fetch_word :
    regAfter (State.reset.withFetchWord 32 0x00A00093) 1#5 = some (0x0000000A#32, 0x00000004#32) := by
  decide

/-! ## The assembler's side (R97 to R99) and the excerpt (R103, R104) -/

theorem test_asm_text : asmText (.lw 5#5 6#5 0xFFFFFFFC#32) = "lw x5, -4(x6)" ∧
    asmText (.lui 5#5 0x12345000#32) = "lui x5, 74565" ∧ asmText (.sw 1#5 2#5 0#32) = "sw x2, 0(x1)" := by
  decide

/-- R190: 0x12345FFF is `lui x5, 0x12346` then `addi x5, x5, -1`. -/
theorem test_li : expandPseudo (.li 5#5 0x12345FFF#32) =
    [.lui 5#5 0x12346000#32, .addi 5#5 5#5 0xFFFFFFFF#32] := by
  decide

theorem test_abi_names : abiName 2#5 = "sp" ∧ abiName 31#5 = "t6" ∧ savedBy 27#5 = .callee ∧ savedBy 28#5 = .caller ∧
    savedBy 3#5 = .nobody := by
  decide

/-- R104: the excerpt gives SLT the operation 000, ADD; the instruction tables decide (C1). -/
theorem test_excerpt_slt : aluControlOf 0x007322B3#32 = 0b000#3 := by decide

/-! ## For each statement with hypotheses, a case that meets them -/

theorem witness_round_trip : ∀ i ∈ [Instr.addi 31#5 31#5 2047#32, .addi 0#5 0#5 0xFFFFF800#32, .sw 31#5 0#5 0xFFFFF800#32,
    .sb 0#5 31#5 2047#32, .beq 0#5 31#5 4094#32, .beq 31#5 0#5 0xFFFFF000#32, .lui 31#5 0xFFFFF000#32, .auipc 0#5 0#32,
    .jal 31#5 1048574#32, .jal 0#5 0xFFF00000#32, .srai 31#5 31#5 31#5, .and 31#5 31#5 31#5], i.wf = true := by
  decide

theorem witness_accepted_word : decode 0xFFFFF0EF#32 = .ok (.jal 1#5 0xFFFFFFFE#32) := by decide

theorem witness_rows : (opRows[0]?.map OpRow.mnemonic, opRows[36]?.map OpRow.mnemonic) = (some "ADD", some "JAL") ∧
    (opRows[36]?.map fun r => 0xFFFFFFEF#32 &&& r.mask == r.bits) = some true := by
  decide

theorem witness_unlisted : decode 0xFFFFFFFF#32 = .error (.unlisted 0xFFFFFFFF#32) ∧
    (bed 0x100#32 0xFFFFFFFF#32 [] []).status = .running ∧
    (bed 0x100#32 0xFFFFFFFF#32 [] []).pc ≠ (bed 0x100#32 0xFFFFFFFF#32 [] []).launch.endPc ∧
    (bed 0x100#32 0xFFFFFFFF#32 [] []).launch.fetch (bed 0x100#32 0xFFFFFFFF#32 [] []).pc = some 0xFFFFFFFF#32 := by
  decide

/-- A memory with its first and last address; register 1 and register 31; an address it does not list. -/
theorem witness_boot : Memory.wf [(0, 1#8), (2 ^ 32 - 1, 2#8)] ∧ (0, 1#8) ∈ [(0, 1#8), (2 ^ 32 - 1, 2#8)] ∧
    (2 ^ 32 - 1, 2#8) ∈ [(0, 1#8), (2 ^ 32 - 1, 2#8)] ∧ (0 < 31 ∧ 30 < 31) ∧
    ∀ v : Byte, (1, v) ∉ [(0, 1#8), (2 ^ 32 - 1, 2#8)] :=
  ⟨by decide, by decide, by decide, by decide, fun v h => by simp at h⟩

/-- A state of each status. -/
theorem witness_statuses : State.reset.status = .running ∧ (State.reset.stop .halted).status = .halted ∧
    (State.reset.raise .illegalInstruction 0#32).status = .faulted .illegalInstruction 0#32 ∧
    (State.reset.refuse .dataAccessToProgramImage).status = .refused .dataAccessToProgramImage := by
  decide

theorem witness_step_runs : (bed 0x100#32 0x007302B3#32 [] []).status = .running ∧
    (bed 0x100#32 0x007302B3#32 [] []).pc ≠ (bed 0x100#32 0x007302B3#32 [] []).launch.endPc ∧
    (bed 0x100#32 0x007302B3#32 [] []).launch.fetch (bed 0x100#32 0x007302B3#32 [] []).pc = some 0x007302B3#32 ∧
    decode 0x007302B3#32 = .ok (.add 5#5 6#5 7#5) := by
  decide

theorem witness_end_reached : State.reset.status = .running ∧ State.reset.pc = State.reset.launch.endPc := by decide

/-- The first and the last word of an image of two, and a pc just past it that is not END_PC. -/
theorem witness_fetch :
    (∃ s : State, s.launch.program = [1#32, 2#32] ∧ s.launch.progBase = 8#32 ∧ s.pc = 8#32) ∧
    (∃ s : State, s.launch.program[1]? = some 2#32 ∧ s.pc.toNat = s.launch.progBase.toNat + 4 * 1) ∧
    ∃ s : State, s.status = .running ∧ s.pc ≠ s.launch.endPc ∧
      ∀ k, k < s.launch.program.length → s.pc.toNat ≠ s.launch.progBase.toNat + 4 * k :=
  ⟨⟨State.boot ⟨8#32, [1#32, 2#32], 0#32, []⟩ 8#32 (Vector.replicate 31 0#32) [], rfl, rfl, rfl⟩,
   ⟨State.boot ⟨8#32, [1#32, 2#32], 0#32, []⟩ 12#32 (Vector.replicate 31 0#32) [], rfl, rfl⟩,
   ⟨State.boot ⟨8#32, [1#32, 2#32], 0#32, []⟩ 16#32 (Vector.replicate 31 0#32) [], rfl, by decide, by decide⟩⟩

/-- A step, and a step that ends the run. -/
theorem witness_steps : (∃ t, step (bed 0x100#32 0x007302B3#32 [] []) = .next t ∧ t.status = .running) ∧
    ∃ t, step State.reset = .next t ∧ t.status ≠ .running :=
  ⟨⟨_, rfl, by decide⟩, ⟨_, rfl, by decide⟩⟩

theorem bed_inv : (bed 0x100#32 0x00732223#32 [(6#5, 0x1000#32)] storeBytes).Inv where
  launchWf := by decide
  pcAligned := by decide
  memWf := by decide
  memInRegion := by decide
  haltedAtEnd := fun h => absurd h (by decide)
  fetchFault := fun w h => by
    rw [show (bed 0x100#32 0x00732223#32 [(6#5, 0x1000#32)] storeBytes).status = .running by decide] at h; cases h
  illegalWord := fun w h => by
    rw [show (bed 0x100#32 0x00732223#32 [(6#5, 0x1000#32)] storeBytes).status = .running by decide] at h; cases h

/-- A store from a state that meets the invariant, and a run that halts after it. -/
theorem witness_invariant : (bed 0x100#32 0x00732223#32 [(6#5, 0x1000#32)] storeBytes).Inv ∧
    (∃ t, step (bed 0x100#32 0x00732223#32 [(6#5, 0x1000#32)] storeBytes) = .next t) ∧
    ∃ t, (bed 0x100#32 0x00732223#32 [(6#5, 0x1000#32)] storeBytes).run 2 = .next t ∧ t.status = .halted :=
  ⟨bed_inv, ⟨_, rfl⟩, ⟨_, rfl, by decide⟩⟩

theorem witness_completes : (bed 0x100#32 0x00732223#32 [(6#5, 0x1000#32)] storeBytes).status = .running ∧
    ∃ t, (bed 0x100#32 0x00732223#32 [(6#5, 0x1000#32)] storeBytes).completesIn 2 t :=
  ⟨by decide, ⟨_, rfl, by decide⟩⟩

theorem witness_placed : decodeTableWord 32 0x00A00093 = some (.addi 1#5 0#5 10#32) ∧
    decodeTableWord 7 0x00A000B7 = some (.lui 0#5 0#32) := by
  decide

/-- The first and the last byte of a DATA_REGION. -/
theorem witness_in_region : Launch.inDataRegion ⟨0#32, [0#32], 4#32, [⟨0, 2 ^ 32⟩]⟩ 4 = true ∧
    Launch.inDataRegion ⟨0#32, [0#32], 4#32, [⟨0, 2 ^ 32⟩]⟩ (2 ^ 32 - 1) = true := by
  decide

theorem witness_registers : (1#5 : RegIdx) ≠ 0#5 ∧ (31#5 : RegIdx) ≠ 0#5 := by decide

/-- Two states that differ in a register the instruction does not name. -/
theorem witness_named_registers :
    ((bed 0x100#32 0#32 [(6#5, 1#32), (9#5, 2#32)] []).pc = (bed 0x100#32 0#32 [(6#5, 1#32), (9#5, 3#32)] []).pc ∧
      (bed 0x100#32 0#32 [(6#5, 1#32), (9#5, 2#32)] []).mem = (bed 0x100#32 0#32 [(6#5, 1#32), (9#5, 3#32)] []).mem ∧
      (bed 0x100#32 0#32 [(6#5, 1#32), (9#5, 2#32)] []).status = (bed 0x100#32 0#32 [(6#5, 1#32), (9#5, 3#32)] []).status ∧
      (bed 0x100#32 0#32 [(6#5, 1#32), (9#5, 2#32)] []).launch = (bed 0x100#32 0#32 [(6#5, 1#32), (9#5, 3#32)] []).launch) ∧
    (∀ r ∈ (Instr.addi 5#5 6#5 1#32).sources, (bed 0x100#32 0#32 [(6#5, 1#32), (9#5, 2#32)] []).readReg r =
      (bed 0x100#32 0#32 [(6#5, 1#32), (9#5, 3#32)] []).readReg r) ∧
    (bed 0x100#32 0#32 [(6#5, 1#32), (9#5, 2#32)] []).readReg 9#5 ≠
      (bed 0x100#32 0#32 [(6#5, 1#32), (9#5, 3#32)] []).readReg 9#5 ∧
    ∃ t, exec (.addi 5#5 6#5 1#32) (bed 0x100#32 0#32 [(6#5, 1#32), (9#5, 3#32)] []) = .next t :=
  ⟨by decide, by decide, by decide, ⟨_, rfl⟩⟩

/-- An instruction of each kind of successor completes. -/
theorem witness_successor : ∀ i ∈ [Instr.add 5#5 6#5 7#5, .beq 6#5 6#5 8#32, .bne 6#5 6#5 2#32, .jal 1#5 8#32,
    .jalr 1#5 0#5 5#32, .lw 5#5 6#5 4#32, .sw 6#5 7#5 0#32],
    (bed 0x100#32 0#32 [(6#5, 0x1000#32)] loadBytes).status = .running ∧
    exec i (bed 0x100#32 0#32 [(6#5, 0x1000#32)] loadBytes) = .next (after i (bed 0x100#32 0#32 [(6#5, 0x1000#32)] loadBytes)) ∧
    (after i (bed 0x100#32 0#32 [(6#5, 0x1000#32)] loadBytes)).status = .running := by
  simp only [List.forall_mem_cons, List.not_mem_nil, IsEmpty.forall_iff, implies_true, and_true]
  exact ⟨⟨by decide, rfl, by decide⟩, ⟨by decide, rfl, by decide⟩, ⟨by decide, rfl, by decide⟩, ⟨by decide, rfl, by decide⟩,
    ⟨by decide, rfl, by decide⟩, ⟨by decide, rfl, by decide⟩, ⟨by decide, rfl, by decide⟩⟩

/-- Words of each row of the tables, with every operand bit 0 and with every operand bit 1. -/
theorem witness_row_words : ∀ r ∈ opRows, r.bits &&& r.mask = r.bits ∧ (r.bits ||| ~~~r.mask) &&& r.mask = r.bits := by
  decide

theorem witness_shift_amount : (31 : Nat) = ((bed 0x100#32 0#32 [(7#5, 0xFFFFFFFF#32)] []).readReg 7#5).toNat % 32 ∧
    (0 : Nat) = ((bed 0x100#32 0#32 [(7#5, 0x20#32)] []).readReg 7#5).toNat % 32 := by
  decide

theorem witness_andi_mask : decode 0x7FF37293#32 = .ok (.andi 5#5 6#5 0x7FF#32) ∧ (0x7FF#32).getLsbD 11 = false := by decide

/-- x6 is the first address of DATA_REGION. -/
def dataBed : State := bed 0x100#32 0#32 [(6#5, 0x1000#32)] []

/-- The first and the last access of each size in DATA_REGION 0x1000 to 0x1007. -/
theorem witness_accesses :
    (dataBed.InData (dataBed.ea 6#5 0#32) 1 ∧ dataBed.InData (dataBed.ea 6#5 7#32) 1) ∧
    (Aligned (dataBed.ea 6#5 0#32) 2 ∧ dataBed.InData (dataBed.ea 6#5 0#32) 2 ∧
      Aligned (dataBed.ea 6#5 6#32) 2 ∧ dataBed.InData (dataBed.ea 6#5 6#32) 2) ∧
    (Aligned (dataBed.ea 6#5 0#32) 4 ∧ dataBed.InData (dataBed.ea 6#5 0#32) 4 ∧
      Aligned (dataBed.ea 6#5 4#32) 4 ∧ dataBed.InData (dataBed.ea 6#5 4#32) 4) := by
  unfold State.InData Aligned
  decide

theorem witness_misaligned :
    (¬ Aligned (dataBed.ea 6#5 1#32) 2 ∧ ¬ Aligned (dataBed.ea 6#5 3#32) 2) ∧
    (¬ Aligned (dataBed.ea 6#5 1#32) 4 ∧ ¬ Aligned (dataBed.ea 6#5 2#32) 4 ∧ ¬ Aligned (dataBed.ea 6#5 3#32) 4) := by
  unfold Aligned
  decide

/-- The image is 0x100 to 0x103. -/
theorem witness_image :
    (dataBed.TouchesImage (dataBed.ea 0#5 0x100#32) 1 ∧ dataBed.TouchesImage (dataBed.ea 0#5 0x103#32) 1) ∧
    ((Aligned (dataBed.ea 0#5 0x100#32) 2 ∧ dataBed.TouchesImage (dataBed.ea 0#5 0x100#32) 2) ∧
      Aligned (dataBed.ea 0#5 0x102#32) 2 ∧ dataBed.TouchesImage (dataBed.ea 0#5 0x102#32) 2) ∧
    (Aligned (dataBed.ea 0#5 0x100#32) 4 ∧ dataBed.TouchesImage (dataBed.ea 0#5 0x100#32) 4) := by
  unfold State.TouchesImage Aligned
  decide

/-- The bytes next to the image and next to DATA_REGION. -/
theorem witness_outside :
    ((¬ dataBed.TouchesImage (dataBed.ea 0#5 0xFF#32) 1 ∧ ¬ dataBed.InData (dataBed.ea 0#5 0xFF#32) 1) ∧
      (¬ dataBed.TouchesImage (dataBed.ea 0#5 0x104#32) 1 ∧ ¬ dataBed.InData (dataBed.ea 0#5 0x104#32) 1) ∧
      ¬ dataBed.TouchesImage (dataBed.ea 0#5 0x1008#32) 1 ∧ ¬ dataBed.InData (dataBed.ea 0#5 0x1008#32) 1) ∧
    ((Aligned (dataBed.ea 0#5 0xFE#32) 2 ∧ ¬ dataBed.TouchesImage (dataBed.ea 0#5 0xFE#32) 2 ∧ ¬ dataBed.InData (dataBed.ea 0#5 0xFE#32) 2) ∧
      Aligned (dataBed.ea 0#5 0x1008#32) 2 ∧ ¬ dataBed.TouchesImage (dataBed.ea 0#5 0x1008#32) 2 ∧ ¬ dataBed.InData (dataBed.ea 0#5 0x1008#32) 2) ∧
    ((Aligned (dataBed.ea 0#5 0xFC#32) 4 ∧ ¬ dataBed.TouchesImage (dataBed.ea 0#5 0xFC#32) 4 ∧ ¬ dataBed.InData (dataBed.ea 0#5 0xFC#32) 4) ∧
      Aligned (dataBed.ea 0#5 0x1008#32) 4 ∧ ¬ dataBed.TouchesImage (dataBed.ea 0#5 0x1008#32) 4 ∧ ¬ dataBed.InData (dataBed.ea 0#5 0x1008#32) 4) := by
  unfold State.TouchesImage State.InData Aligned
  decide

/-- JALR: a target sum with bit 0 set; JAL: the pc itself. -/
theorem witness_jumps : ((0x200#32 : Word).toNat = ((bed 0x100#32 0#32 [(6#5, 0x200#32)] []).readReg 6#5 + 1#32).toNat / 2 * 2 ∧
      Aligned 0x200#32 4) ∧ Aligned ((bed 0x100#32 0#32 [] []).pc + 0#32) 4 := by
  unfold Aligned
  decide

theorem witness_misaligned_jumps :
    ((0x202#32 : Word).toNat = ((bed 0x100#32 0#32 [(6#5, 0x200#32)] []).readReg 6#5 + 3#32).toNat / 2 * 2 ∧
      ¬ Aligned 0x202#32 4) ∧ ¬ Aligned ((bed 0x100#32 0#32 [] []).pc + 2#32) 4 := by
  unfold Aligned
  decide

/-- Two equal values, the most negative and the most positive. -/
def branchBed : State := bed 0x100#32 0#32 [(6#5, 5#32), (7#5, 5#32), (8#5, 0x80000000#32), (9#5, 0x7FFFFFFF#32)] []

/-- Every branch taken, and with an aligned and a misaligned target. -/
theorem witness_taken_branches : branchBed.readReg 6#5 = branchBed.readReg 7#5 ∧ branchBed.readReg 6#5 ≠ branchBed.readReg 8#5 ∧
    (branchBed.readReg 8#5).toInt < (branchBed.readReg 9#5).toInt ∧ (branchBed.readReg 7#5).toInt ≤ (branchBed.readReg 6#5).toInt ∧
    (branchBed.readReg 9#5).toNat < (branchBed.readReg 8#5).toNat ∧ (branchBed.readReg 7#5).toNat ≤ (branchBed.readReg 6#5).toNat ∧
    Aligned (branchBed.pc + 0xFFFFF000#32) 4 ∧ ¬ Aligned (branchBed.pc + 4094#32) 4 := by
  unfold Aligned
  decide

/-- Every branch not taken. -/
theorem witness_branches_not_taken : decide (branchBed.readReg 6#5 = branchBed.readReg 8#5) = false ∧
    decide (branchBed.readReg 6#5 ≠ branchBed.readReg 7#5) = false ∧
    decide ((branchBed.readReg 6#5).toInt < (branchBed.readReg 7#5).toInt) = false ∧
    decide ((branchBed.readReg 9#5).toInt ≤ (branchBed.readReg 8#5).toInt) = false ∧
    decide ((branchBed.readReg 6#5).toNat < (branchBed.readReg 7#5).toNat) = false ∧
    decide ((branchBed.readReg 8#5).toNat ≤ (branchBed.readReg 9#5).toNat) = false := by
  decide

theorem witness_self_jump : ((bed 0x100#32 0x0000006F#32 [] []).status = .running ∧
      (bed 0x100#32 0x0000006F#32 [] []).pc ≠ (bed 0x100#32 0x0000006F#32 [] []).launch.endPc ∧
      (bed 0x100#32 0x0000006F#32 [] []).pc.toNat % 4 = 0 ∧
      (bed 0x100#32 0x0000006F#32 [] []).launch.fetch (bed 0x100#32 0x0000006F#32 [] []).pc = some 0x0000006F#32) ∧
    (bed 0x100#32 0x00000063#32 [] []).launch.fetch (bed 0x100#32 0x00000063#32 [] []).pc = some 0x00000063#32 := by
  decide

/-- SW of x7 at 0x1004, then loads of its bytes 0 and 3, its halfwords 0 and 2 and the word. -/
def swBed : State := bed 0x100#32 0#32 [(6#5, 0x1000#32), (7#5, 0x11223344#32)] storeBytes

theorem witness_loads_see_stores : swBed.status = .running ∧
    exec (.sw 6#5 7#5 4#32) swBed = .next (after (.sw 6#5 7#5 4#32) swBed) ∧
    (after (.sw 6#5 7#5 4#32) swBed).status = .running ∧ (5#5 : RegIdx) ≠ 0#5 ∧
    (∀ k ∈ [0, 3], (after (.sw 6#5 7#5 4#32) swBed).readReg 6#5 + BitVec.ofNat 32 (4 + k) =
      swBed.ea 6#5 4#32 + BitVec.ofNat 32 k) ∧
    (∀ k ∈ [0, 2], (after (.sw 6#5 7#5 4#32) swBed).readReg 6#5 + BitVec.ofNat 32 (4 + k) =
      swBed.ea 6#5 4#32 + BitVec.ofNat 32 k) ∧
    (after (.sw 6#5 7#5 4#32) swBed).readReg 6#5 + 4#32 = swBed.ea 6#5 4#32 ∧
    (∀ v, ∃ u, exec (.lbu 5#5 6#5 v) (after (.sw 6#5 7#5 4#32) swBed) = .next u) ∧
    (∀ v, ∃ u, exec (.lhu 5#5 6#5 v) (after (.sw 6#5 7#5 4#32) swBed) = .next u) ∧
    ∃ u, exec (.lw 5#5 6#5 4#32) (after (.sw 6#5 7#5 4#32) swBed) = .next u :=
  ⟨by decide, rfl, by decide, by decide, by decide, by decide, by decide, fun _ => ⟨_, rfl⟩, fun _ => ⟨_, rfl⟩, ⟨_, rfl⟩⟩

/-- A store that changes a byte, and an instruction that is no store. -/
theorem witness_stores_change : (∃ t, exec (.sw 6#5 7#5 4#32) swBed = .next t ∧ t.readByte 0x1004 ≠ swBed.readByte 0x1004) ∧
    ((∃ t, exec (.lw 5#5 6#5 4#32) swBed = .next t) ∧ ∀ a b v, Instr.lw 5#5 6#5 4#32 ≠ .sb a b v ∧
      Instr.lw 5#5 6#5 4#32 ≠ .sh a b v ∧ Instr.lw 5#5 6#5 4#32 ≠ .sw a b v) :=
  ⟨⟨_, rfl, by decide⟩, ⟨_, rfl⟩, fun a b v => ⟨by simp, by simp, by simp⟩⟩

theorem witness_equal_contents : Memory.wf (Memory.put (Memory.put [] 0 1#8) 5 2#8) ∧
    ∀ a, Memory.lookup (Memory.put (Memory.put [] 0 1#8) 5 2#8) a = Memory.lookup (Memory.put (Memory.put [] 5 2#8) 0 1#8) a :=
  ⟨by decide, fun _ => rfl⟩

theorem witness_call : Aligned ((bed 0x100#32 0#32 [] []).pc + 0x7FFFFFFC#32) 4 ∧
    Aligned ((bed 0x100#32 0#32 [] []).pc + 0x80000000#32) 4 := by
  unfold Aligned
  decide

end Sys2Proof.Tests
end

section
/-! The immediates of R80 to R84 as the source writes them. The model sign-extends the field with its concatenation inside
(`sext_12`, `sext_13`, `sext_21`); the source puts copies of `inst[31]` in front of the same pieces. Three facts about
sign extension join the two readings: it passes over the low part of a concatenation, on a field that ends in `inst[31]`
it is a run of copies of that bit, and it keeps the signed value, which gives the ranges. -/

namespace Sys2Proof

/-! ## Sign extension of a field -/

/-- Only the high part of a concatenation is sign-extended. -/
theorem signExtend_append {n : Nat} (v m : Nat) (x : BitVec n) (y : BitVec m) (hn : 0 < n) :
    (x ++ y).signExtend (v + m) = x.signExtend v ++ y := by
  have hmsb : (x ++ y).msb = x.msb := by rw [BitVec.msb_append, if_neg (by omega)]
  apply BitVec.eq_of_getLsbD_eq
  intro i hi
  rw [BitVec.getLsbD_signExtend, BitVec.getLsbD_append, BitVec.getLsbD_append, BitVec.getLsbD_signExtend, hmsb]
  by_cases hlow : i < m
  · simp [hlow, hi, show i < n + m by omega]
  · simp [hlow, hi, show i - m < v by omega, show i < n + m ↔ i - m < n by omega]

/-- A field whose top bit is `inst[31]` is sign-extended by `k` copies of `inst[31]` (the source's `{k{instruction[31]}}`). -/
theorem signExtend_topField (w : Word) (lo n k : Nat) (hn : 0 < n) (hlo : lo + n = 32) :
    (w.extractLsb' lo n).signExtend (1 * k + n) = BitVec.replicate k (w.extractLsb' 31 1) ++ w.extractLsb' lo n := by
  have hmsb : (w.extractLsb' lo n).msb = w.getLsbD 31 := by
    rw [BitVec.msb_eq_getLsbD_last, BitVec.getLsbD_extractLsb', show lo + (n - 1) = 31 by omega]
    simp [hn]
  apply BitVec.eq_of_getLsbD_eq
  intro i hi
  rw [BitVec.getLsbD_signExtend, BitVec.getLsbD_append, hmsb]
  by_cases hfield : i < n
  · simp [hfield, show i < k + n by omega]
  · simp [hfield, Nat.mod_one, show i < k + n by omega, show i - n < k by omega]

theorem signExtend_range {n : Nat} (x : BitVec n) (hn : n ≤ 32) :
    -2 ^ (n - 1) ≤ (x.signExtend 32).toInt ∧ (x.signExtend 32).toInt ≤ 2 ^ (n - 1) - 1 := by
  rw [BitVec.toInt_signExtend_of_le hn]
  exact ⟨x.le_toInt, Int.le_sub_one_of_lt x.toInt_lt⟩

/-- With a zero bit behind the field the value is twice the field's, so the greatest value is even as well. -/
theorem signExtend_append_zero_range {n : Nat} (x : BitVec n) (hn : n + 1 ≤ 32) :
    2 * -2 ^ (n - 1) ≤ ((x ++ 0#1).signExtend 32).toInt ∧
      ((x ++ 0#1).signExtend 32).toInt ≤ 2 * (2 ^ (n - 1) - 1) := by
  rw [BitVec.toInt_signExtend_of_le hn, BitVec.toInt_append_zero]
  have hlow := x.le_toInt
  have hhigh := x.toInt_lt
  omega

theorem append_zero_even {n : Nat} (x : BitVec n) : (x ++ 0#1).toNat % 2 = 0 := by
  simp [BitVec.toNat_append, Nat.shiftLeft_eq]

theorem append_zero_eq_shiftLeft {n m : Nat} (x : BitVec n) : x ++ 0#m = x.setWidth (n + m) <<< m := by
  rw [BitVec.append_def, BitVec.shiftLeftZeroExtend_eq]
  simp

/-! ## One equation per format -/

/-- R80. -/
theorem immI_eq (w : Word) :
    immI w = (BitVec.replicate 20 (w.extractLsb' 31 1) ++ w.extractLsb' 20 12 : BitVec 32) :=
  signExtend_topField w 20 12 20 (by decide) rfl

/-- R81. -/
theorem immS_eq (w : Word) :
    immS w = (BitVec.replicate 20 (w.extractLsb' 31 1) ++ w.extractLsb' 25 7 ++ w.extractLsb' 7 5 : BitVec 32) := by
  have hsign := signExtend_topField w 25 7 20 (by decide) rfl
  unfold immS
  rw [← hsign]
  exact signExtend_append 27 5 _ _ (by decide)

/-- R82: the field's own top bit is the last of the twenty copies of `inst[31]`. -/
theorem immB_eq (w : Word) :
    immB w = (BitVec.replicate 19 (w.extractLsb' 31 1) ++ w.extractLsb' 31 1 ++ w.extractLsb' 7 1 ++
      w.extractLsb' 25 6 ++ w.extractLsb' 8 4 ++ 0#1 : BitVec 32) := by
  have hsign := signExtend_topField w 31 1 19 (by decide) rfl
  unfold immB
  rw [← hsign, signExtend_append 31 1 _ _ (by decide), signExtend_append 27 4 _ _ (by decide),
    signExtend_append 21 6 _ _ (by decide), signExtend_append 20 1 _ _ (by decide)]

/-- R83. -/
theorem immU_eq_shiftLeft (w : Word) : immU w = (w.extractLsb' 12 20).setWidth 32 <<< 12 :=
  append_zero_eq_shiftLeft _

/-- R84: the field's own top bit is the last of the twelve copies of `inst[31]`. -/
theorem immJ_eq (w : Word) :
    immJ w = (BitVec.replicate 11 (w.extractLsb' 31 1) ++ w.extractLsb' 31 1 ++ w.extractLsb' 12 8 ++
      w.extractLsb' 20 1 ++ w.extractLsb' 21 10 ++ 0#1 : BitVec 32) := by
  have hsign := signExtend_topField w 31 1 11 (by decide) rfl
  unfold immJ
  rw [← hsign, signExtend_append 31 1 _ _ (by decide), signExtend_append 21 10 _ _ (by decide),
    signExtend_append 20 1 _ _ (by decide), signExtend_append 12 8 _ _ (by decide)]

/-! ## Range and evenness per format -/

theorem immI_range (w : Word) : -2048 ≤ (immI w).toInt ∧ (immI w).toInt ≤ 2047 :=
  signExtend_range (w.extractLsb' 20 12) (by decide)

theorem immS_range (w : Word) : -2048 ≤ (immS w).toInt ∧ (immS w).toInt ≤ 2047 :=
  signExtend_range (w.extractLsb' 25 7 ++ w.extractLsb' 7 5) (by decide)

theorem immB_range (w : Word) : -4096 ≤ (immB w).toInt ∧ (immB w).toInt ≤ 4094 :=
  signExtend_append_zero_range
    (w.extractLsb' 31 1 ++ w.extractLsb' 7 1 ++ w.extractLsb' 25 6 ++ w.extractLsb' 8 4) (by decide)

theorem immJ_range (w : Word) : -1048576 ≤ (immJ w).toInt ∧ (immJ w).toInt ≤ 1048574 :=
  signExtend_append_zero_range
    (w.extractLsb' 31 1 ++ w.extractLsb' 12 8 ++ w.extractLsb' 20 1 ++ w.extractLsb' 21 10) (by decide)

theorem immB_even (w : Word) : (immB w).toNat % 2 = 0 := by
  rw [immB_eq]
  exact append_zero_even _

theorem immJ_even (w : Word) : (immJ w).toNat % 2 = 0 := by
  rw [immJ_eq]
  exact append_zero_even _

/-! ## The obligation -/

/-- Settles O6, format by format: the source's concatenation, the range, and a zero low bit for B and J. -/
theorem immediatesAsTheSourceWritesThem : Obligations.ImmediatesAsTheSourceWritesThem := by
  intro w
  obtain ⟨lowB, highB⟩ := immB_range w
  obtain ⟨lowJ, highJ⟩ := immJ_range w
  exact ⟨⟨immI_eq w, immI_range w⟩, ⟨immS_eq w, immS_range w⟩, ⟨immB_eq w, lowB, highB, immB_even w⟩,
    ⟨BitVec.extractLsb'_append_eq_left, BitVec.extractLsb'_append_eq_right, immU_eq_shiftLeft w⟩,
    ⟨immJ_eq w, lowJ, highJ, immJ_even w⟩⟩

end Sys2Proof
end

section
/-! From the word and from the result. The fixed bits of any two rows differ, so a word that matches a row decodes to what
that row reads; and an instruction that answers `State.result` meets every clause of the frame at once. -/

namespace Sys2Proof

/-! ## Decoding a word of a known row -/

/-- Two rows differ in a bit that both masks fix. -/
abbrev OpRow.Differs (r q : OpRow) : Prop := r.bits &&& q.mask ≠ q.bits &&& r.mask

theorem OpRow.differs_symm : Std.Symm OpRow.Differs := ⟨fun _ _ h => h.symm⟩

/-- R90. -/
theorem opRows_pairwise_differ : opRows.Pairwise OpRow.Differs := by
  decide

/-- No word matches two rows, for on the bits both masks fix it would agree with both. -/
theorem OpRow.not_differs_of_matches {w : Word} {r q : OpRow} (hr : w &&& r.mask = r.bits) (hq : w &&& q.mask = q.bits) :
    ¬ r.Differs q := by
  rw [not_not, ← hr, ← hq, BitVec.and_assoc, BitVec.and_assoc, BitVec.and_comm r.mask]

theorem row_eq_of_matches {w : Word} {r q : OpRow} (hr : r ∈ opRows) (hq : q ∈ opRows)
    (hwr : w &&& r.mask = r.bits) (hwq : w &&& q.mask = q.bits) : r = q := by
  have hsymm := OpRow.differs_symm
  by_contra hne
  exact OpRow.not_differs_of_matches hwr hwq (opRows_pairwise_differ.forall hr hq hne)

/-- A word that matches a row decodes to what the row reads from it (R86), wherever the row stands in the table. -/
theorem decode_of_matches {w : Word} {r : OpRow} (hr : r ∈ opRows) (hw : w &&& r.mask = r.bits) :
    decode w = .ok (r.read w) := by
  cases hd : decode w with
  | error e => exact absurd hw ((decode_error_cases w e hd).2 r hr)
  | ok i =>
    obtain ⟨q, hq, hwq, rfl⟩ := decode_ok_cases w i hd
    rw [row_eq_of_matches hr hq hw hwq]

end Sys2Proof

namespace Sys2Proof.Machine

/-! ## An instruction with one result -/

theorem result_writesReg (s : State) (rd : RegIdx) (v : Word) : s.WritesReg (s.result rd v) rd v :=
  ⟨result_readReg s rd v, result_readByte s rd v, result_mem s rd v, result_status s rd v, result_launch s rd v⟩

/-- An instruction that answers `State.result` completes, writes its one result, and goes on to `pc + 4` (R121, R130). -/
theorem completes_of_result {i : Instr} {s : State} {rd : RegIdx} {v : Word} {P : Word → Prop}
    (hexec : exec i s = .next (s.result rd v)) (hv : P v) :
    ∃ t v, exec i s = .next t ∧ s.WritesReg t rd v ∧ t.pc = s.pc + 4#32 ∧ P v :=
  ⟨_, v, hexec, result_writesReg s rd v, result_pc s rd v, hv⟩

end Sys2Proof.Machine
end

section
/-! The register-register instructions (spec/40_rtype.md): what `exec` answers for each, the value of each operation in
the words of its rule, and the four obligations put together from them. -/

namespace Sys2Proof.Machine

/-! ## What `exec` answers -/

/-- The five low bits of a register are its value modulo 32 (R113). -/
theorem shiftAmount_eq (v : Word) : shiftAmount v = v.toNat % 32 := by
  simp [shiftAmount]

section
variable (rd rs1 rs2 : RegIdx) (s : State)

theorem exec_add : exec (.add rd rs1 rs2) s = .next (s.result rd (s.readReg rs1 + s.readReg rs2)) := rfl

theorem exec_sub : exec (.sub rd rs1 rs2) s = .next (s.result rd (s.readReg rs1 - s.readReg rs2)) := rfl

theorem exec_slt : exec (.slt rd rs1 rs2) s =
    .next (s.result rd (truth (condLt (s.readReg rs1) (s.readReg rs2)))) := rfl

theorem exec_sltu : exec (.sltu rd rs1 rs2) s =
    .next (s.result rd (truth (condLtu (s.readReg rs1) (s.readReg rs2)))) := rfl

theorem exec_xor : exec (.xor rd rs1 rs2) s = .next (s.result rd (s.readReg rs1 ^^^ s.readReg rs2)) := rfl

theorem exec_or : exec (.or rd rs1 rs2) s = .next (s.result rd (s.readReg rs1 ||| s.readReg rs2)) := rfl

theorem exec_and : exec (.and rd rs1 rs2) s = .next (s.result rd (s.readReg rs1 &&& s.readReg rs2)) := rfl

variable {rs2 s} {n : Nat} (hn : n = (s.readReg rs2).toNat % 32)
include hn

theorem exec_sll : exec (.sll rd rs1 rs2) s = .next (s.result rd (s.readReg rs1 <<< n)) := by
  rw [hn, ← shiftAmount_eq]; rfl

theorem exec_srl : exec (.srl rd rs1 rs2) s = .next (s.result rd (s.readReg rs1 >>> n)) := by
  rw [hn, ← shiftAmount_eq]; rfl

theorem exec_sra : exec (.sra rd rs1 rs2) s = .next (s.result rd ((s.readReg rs1).sshiftRight n)) := by
  rw [hn, ← shiftAmount_eq]; rfl

end

/-! ## The values -/

/-- R112: the difference is the one word that gives the first operand back when the second is added. -/
theorem toNat_sub_add (a b : Word) : ((a - b).toNat + b.toNat) % 2 ^ 32 = a.toNat := by
  rw [← BitVec.toNat_add, BitVec.sub_add_cancel]

/-- Zeros enter at the right. -/
theorem shiftLeft_bit (x : Word) (n i : Nat) (hi : i < 32) :
    (x <<< n).getLsbD i = if n ≤ i then x.getLsbD (i - n) else false := by
  rw [BitVec.getLsbD_shiftLeft]
  split
  · simp [hi, Nat.not_lt.2 ‹n ≤ i›]
  · simp [Nat.not_le.1 ‹¬ n ≤ i›]

/-- Zeros enter at the left. -/
theorem ushiftRight_bit (x : Word) (n i : Nat) :
    (x >>> n).getLsbD i = if i + n ≤ 31 then x.getLsbD (i + n) else false := by
  rw [BitVec.getLsbD_ushiftRight, Nat.add_comm n i]
  split
  · rfl
  · exact BitVec.getLsbD_of_ge x _ (by omega)

/-- Copies of the sign bit enter at the left. -/
theorem sshiftRight_bit (x : Word) (n i : Nat) (hi : i < 32) :
    (x.sshiftRight n).getLsbD i = if i + n ≤ 31 then x.getLsbD (i + n) else x.getLsbD 31 := by
  rw [BitVec.getLsbD_sshiftRight, Nat.add_comm n i, BitVec.msb_eq_getLsbD_last]
  simp [Nat.not_le.2 hi, Nat.lt_succ_iff]

theorem truth_condLt (a b : Word) :
    truth (condLt a b) = if a.toInt < b.toInt then 0x00000001#32 else 0x00000000#32 := by
  simp [truth, condLt]

theorem truth_condLtu (a b : Word) :
    truth (condLtu a b) = if a.toNat < b.toNat then 0x00000001#32 else 0x00000000#32 := by
  simp [truth, condLtu]

end Sys2Proof.Machine

namespace Sys2Proof

open Machine
open Laws.EncodeCarriesRow (row_mem)

/-! ## The obligations -/

/-- Settles O23: rows 0 and 1 of the table, then the sum and the difference modulo 2^32. -/
theorem addSubComplete : Obligations.AddSubComplete := by
  refine ⟨fun _ => decode_of_matches (row_mem 0 _ rfl),
    fun _ => decode_of_matches (row_mem 1 _ rfl),
    fun s rd rs1 rs2 => ⟨?add, ?sub⟩⟩
  case add => exact completes_of_result (exec_add rd rs1 rs2 s) (BitVec.toNat_add _ _)
  case sub => exact completes_of_result (exec_sub rd rs1 rs2 s) (toNat_sub_add _ _)

/-- Settles O24: rows 2, 6 and 7 of the table, then the result of each shift bit by bit. -/
theorem registerShiftsComplete : Obligations.RegisterShiftsComplete := by
  refine ⟨fun _ => decode_of_matches (row_mem 2 _ rfl),
    fun _ => decode_of_matches (row_mem 6 _ rfl),
    fun _ => decode_of_matches (row_mem 7 _ rfl),
    fun s rd rs1 rs2 n hn => ⟨?sll, ?srl, ?sra⟩⟩
  case sll => exact completes_of_result (exec_sll rd rs1 hn) (shiftLeft_bit _ n)
  case srl => exact completes_of_result (exec_srl rd rs1 hn) fun i _ => ushiftRight_bit _ n i
  case sra => exact completes_of_result (exec_sra rd rs1 hn) (sshiftRight_bit _ n)

/-- Settles O25: rows 3 and 4 of the table, then the truth word of each comparison. -/
theorem registerComparesComplete : Obligations.RegisterComparesComplete := by
  refine ⟨fun _ => decode_of_matches (row_mem 3 _ rfl),
    fun _ => decode_of_matches (row_mem 4 _ rfl),
    fun s rd rs1 rs2 => ⟨?slt, ?sltu⟩⟩
  case slt => exact completes_of_result (exec_slt rd rs1 rs2 s) (truth_condLt _ _)
  case sltu => exact completes_of_result (exec_sltu rd rs1 rs2 s) (truth_condLtu _ _)

/-- Settles O26: rows 5, 8 and 9 of the table, then each operation on one bit of the sources. -/
theorem registerLogicCompletes : Obligations.RegisterLogicCompletes := by
  refine ⟨fun _ => decode_of_matches (row_mem 5 _ rfl),
    fun _ => decode_of_matches (row_mem 8 _ rfl),
    fun _ => decode_of_matches (row_mem 9 _ rfl),
    fun s rd rs1 rs2 => ⟨?xor, ?or, ?and⟩⟩
  case xor => exact completes_of_result (exec_xor rd rs1 rs2 s) fun _ _ => BitVec.getLsbD_xor
  case or => exact completes_of_result (exec_or rd rs1 rs2 s) fun _ _ => BitVec.getLsbD_or
  case and => exact completes_of_result (exec_and rd rs1 rs2 s) fun _ _ => BitVec.getLsbD_and

end Sys2Proof
end

section
/-! The immediate arithmetic, logic and shift instructions (spec/41_itype_alu.md): the row an instruction is read
by, the bound on the mask of an ANDI that follows from it, what `exec` answers, and three obligations put together. -/

namespace Sys2Proof

open Laws.EncodeCarriesRow (row_mem)

/-! ## The row of an instruction, by its mnemonic -/

theorem read_mnemonic (w : Word) : ∀ r ∈ opRows, (r.read w).mnemonic = r.mnemonic :=
  List.map_inj_left.1 rfl

theorem opRows_mnemonics_nodup : (opRows.map OpRow.mnemonic).Nodup := by
  decide

/-- What a word decodes to is read from it by the row of the same mnemonic, for no two rows share one (R88). -/
theorem eq_read_of_decode {w : Word} {i : Instr} {r : OpRow} (hr : r ∈ opRows) (hname : r.mnemonic = i.mnemonic)
    (hdecode : decode w = .ok i) : i = r.read w := by
  obtain ⟨q, hq, -, rfl⟩ := decode_ok_cases w i hdecode
  have hsame : r.mnemonic = q.mnemonic := hname.trans (read_mnemonic w q hq)
  rw [List.inj_on_of_nodup_map opRows_mnemonics_nodup hr hq hsame]

/-! ## The mask of an ANDI (R136) -/

/-- A field whose top bit is clear gains no bit when it is sign-extended, so its value stays below its top bit's. -/
theorem signExtend_toNat_lt {n v : Nat} (x : BitVec n) (hn : 0 < n) (hv : n ≤ v)
    (htop : (x.signExtend v).getLsbD (n - 1) = false) : (x.signExtend v).toNat < 2 ^ (n - 1) := by
  have hmsb : x.msb = false := by
    rw [BitVec.msb_eq_getLsbD_last, ← htop, BitVec.getLsbD_signExtend]
    simp [hn, show n - 1 < v by omega]
  rw [BitVec.signExtend_eq_setWidth_of_msb_false hmsb, BitVec.toNat_setWidth_of_le hv]
  exact BitVec.toNat_lt_of_msb_false hmsb

/-- The immediate of a decoded ANDI is `imm_I` of its word (R80), so it ends below bit 11 when that bit is clear. -/
theorem andi_mask_lt {w imm : Word} {rd rs1 : RegIdx} (hdecode : decode w = .ok (.andi rd rs1 imm))
    (hbit : imm.getLsbD 11 = false) : imm.toNat < 2 ^ 11 := by
  obtain ⟨-, -, rfl⟩ : rd = rdOf w ∧ rs1 = rs1Of w ∧ imm = immI w :=
    Instr.andi.inj (eq_read_of_decode (row_mem 15 _ rfl) rfl hdecode)
  exact signExtend_toNat_lt (w.extractLsb' 20 12) (by decide) (by decide) hbit

end Sys2Proof

namespace Sys2Proof.Machine

/-! ## What `exec` answers -/

section
variable (rd rs1 : RegIdx) (imm : Word) (shamt : BitVec 5) (s : State)

theorem exec_addi : exec (.addi rd rs1 imm) s = .next (s.result rd (s.readReg rs1 + imm)) := rfl

theorem exec_slti : exec (.slti rd rs1 imm) s = .next (s.result rd (truth (condLt (s.readReg rs1) imm))) := rfl

theorem exec_xori : exec (.xori rd rs1 imm) s = .next (s.result rd (s.readReg rs1 ^^^ imm)) := rfl

theorem exec_ori : exec (.ori rd rs1 imm) s = .next (s.result rd (s.readReg rs1 ||| imm)) := rfl

theorem exec_andi : exec (.andi rd rs1 imm) s = .next (s.result rd (s.readReg rs1 &&& imm)) := rfl

theorem exec_slli : exec (.slli rd rs1 shamt) s = .next (s.result rd (s.readReg rs1 <<< shamt.toNat)) := rfl

theorem exec_srli : exec (.srli rd rs1 shamt) s = .next (s.result rd (s.readReg rs1 >>> shamt.toNat)) := rfl

theorem exec_srai : exec (.srai rd rs1 shamt) s =
    .next (s.result rd ((s.readReg rs1).sshiftRight shamt.toNat)) := rfl

end

end Sys2Proof.Machine

namespace Sys2Proof

open Machine
open Laws.EncodeCarriesRow (row_mem)

/-! ## The obligations -/

/-- Settles O27: rows 10 and 11 of the table, then the sum modulo 2^32 and the truth word of the comparison. -/
theorem addiSltiComplete : Obligations.AddiSltiComplete := by
  refine ⟨fun _ => decode_of_matches (row_mem 10 _ rfl),
    fun _ => decode_of_matches (row_mem 11 _ rfl),
    fun s rd rs1 imm => ⟨?addi, ?slti⟩⟩
  case addi => exact completes_of_result (exec_addi rd rs1 imm s) (BitVec.toNat_add _ _)
  case slti => exact completes_of_result (exec_slti rd rs1 imm s) (truth_condLt _ _)

/-- Settles O29: rows 13, 14 and 15 of the table, each operation on one bit of the operands, and the mask of an ANDI. -/
theorem immediateLogicCompletes : Obligations.ImmediateLogicCompletes := by
  refine ⟨fun _ => decode_of_matches (row_mem 13 _ rfl),
    fun _ => decode_of_matches (row_mem 14 _ rfl),
    fun _ => decode_of_matches (row_mem 15 _ rfl),
    fun s rd rs1 imm => ⟨?xori, ?ori, ?andi, ?mask⟩⟩
  case xori => exact completes_of_result (exec_xori rd rs1 imm s) fun _ _ => BitVec.getLsbD_xor
  case ori => exact completes_of_result (exec_ori rd rs1 imm s) fun _ _ => BitVec.getLsbD_or
  case andi => exact completes_of_result (exec_andi rd rs1 imm s) fun _ _ => BitVec.getLsbD_and
  case mask => exact fun _ hdecode hbit => andi_mask_lt hdecode hbit

/-- Settles O30: rows 16, 17 and 18 of the table, then the result of each shift bit by bit. -/
theorem immediateShiftsComplete : Obligations.ImmediateShiftsComplete := by
  refine ⟨fun _ => decode_of_matches (row_mem 16 _ rfl),
    fun _ => decode_of_matches (row_mem 17 _ rfl),
    fun _ => decode_of_matches (row_mem 18 _ rfl),
    fun s rd rs1 shamt => ⟨?slli, ?srli, ?srai⟩⟩
  case slli => exact completes_of_result (exec_slli rd rs1 shamt s) (shiftLeft_bit _ shamt.toNat)
  case srli => exact completes_of_result (exec_srli rd rs1 shamt s) fun i _ => ushiftRight_bit _ shamt.toNat i
  case srai => exact completes_of_result (exec_srai rd rs1 shamt s) (sshiftRight_bit _ shamt.toNat)

end Sys2Proof
end

section
/-! The encoding (spec/30_encoding.md). A word is its fields put together again, in every format; so a row of the table
reads a word without loss, and what the encoder wrote is read back. The fixed bits of a row are the opcode and at most
funct3 and funct7 beside it. -/

namespace Sys2Proof

open Machine
open Laws.EncodeCarriesRow (row_mem)

/-! ## The fixed fields of a word (R71) -/

abbrev opcodeOf (w : Word) : BitVec 7 := w.extractLsb' 0 7
abbrev funct3Of (w : Word) : BitVec 3 := w.extractLsb' 12 3
abbrev funct7Of (w : Word) : BitVec 7 := w.extractLsb' 25 7

theorem append_inj_iff {n m : Nat} {x x' : BitVec n} {y y' : BitVec m} :
    x ++ y = x' ++ y' ↔ x = x' ∧ y = y' := by
  refine ⟨fun h => ⟨?_, ?_⟩, fun ⟨hx, hy⟩ => by rw [hx, hy]⟩
  · rw [← BitVec.extractLsb'_append_eq_left (a := x) (b := y), h, BitVec.extractLsb'_append_eq_left]
  · rw [← BitVec.extractLsb'_append_eq_right (a := x) (b := y), h, BitVec.extractLsb'_append_eq_right]

/-! ## A word is its fields put together: one equation per layout (R72 to R78, R80 to R85) -/

theorem wordR_of_fields (w : Word) :
    wordR (funct7Of w) (funct3Of w) (opcodeOf w) (rdOf w) (rs1Of w) (rs2Of w) = w := by
  apply BitVec.eq_of_getLsbD_eq
  intro i hi
  simp only [wordR, rdOf, rs1Of, rs2Of, BitVec.getLsbD_append, BitVec.getLsbD_extractLsb']
  interval_cases i <;> simp

theorem wordI_of_fields (w : Word) : wordI (funct3Of w) (opcodeOf w) (rdOf w) (rs1Of w) (immI w) = w := by
  apply BitVec.eq_of_getLsbD_eq
  intro i hi
  simp only [wordI, rdOf, rs1Of, immI, BitVec.getLsbD_append, BitVec.getLsbD_extractLsb', BitVec.getLsbD_signExtend]
  interval_cases i <;> simp

theorem wordS_of_fields (w : Word) : wordS (funct3Of w) (opcodeOf w) (rs1Of w) (rs2Of w) (immS w) = w := by
  apply BitVec.eq_of_getLsbD_eq
  intro i hi
  simp only [wordS, rs1Of, rs2Of, immS, BitVec.getLsbD_append, BitVec.getLsbD_extractLsb', BitVec.getLsbD_signExtend]
  interval_cases i <;> simp

theorem wordB_of_fields (w : Word) : wordB (funct3Of w) (opcodeOf w) (rs1Of w) (rs2Of w) (immB w) = w := by
  apply BitVec.eq_of_getLsbD_eq
  intro i hi
  simp only [wordB, rs1Of, rs2Of, immB, BitVec.getLsbD_append, BitVec.getLsbD_extractLsb', BitVec.getLsbD_signExtend]
  interval_cases i <;> simp

theorem wordU_of_fields (w : Word) : wordU (opcodeOf w) (rdOf w) (immU w) = w := by
  apply BitVec.eq_of_getLsbD_eq
  intro i hi
  simp only [wordU, rdOf, immU, BitVec.getLsbD_append, BitVec.getLsbD_extractLsb']
  interval_cases i <;> simp

theorem wordJ_of_fields (w : Word) : wordJ (opcodeOf w) (rdOf w) (immJ w) = w := by
  apply BitVec.eq_of_getLsbD_eq
  intro i hi
  simp only [wordJ, rdOf, immJ, BitVec.getLsbD_append, BitVec.getLsbD_extractLsb', BitVec.getLsbD_signExtend]
  interval_cases i <;> simp

/-! ## Every immediate that is read can be encoded (R85) -/

theorem extractLsb'_signExtend {n v : Nat} (x : BitVec n) (hn : n ≤ v) : (x.signExtend v).extractLsb' 0 n = x := by
  apply BitVec.eq_of_getLsbD_eq
  intro i hi
  rw [BitVec.getLsbD_extractLsb', BitVec.getLsbD_signExtend, Nat.zero_add]
  simp [hi, show i < v by omega]

theorem getLsbD_zero_signExtend_append {n : Nat} (x : BitVec n) : ((x ++ 0#1).signExtend 32).getLsbD 0 = false := by
  rw [BitVec.getLsbD_signExtend, BitVec.getLsbD_append]
  simp

theorem immI_fits (w : Word) : immFitsI (immI w) = true := by
  unfold immFitsI immI
  rw [extractLsb'_signExtend _ (by decide), beq_self_eq_true]

theorem immS_fits (w : Word) : immFitsI (immS w) = true := by
  unfold immFitsI immS
  rw [extractLsb'_signExtend _ (by decide), beq_self_eq_true]

theorem immB_fits (w : Word) : immFitsB (immB w) = true := by
  unfold immFitsB immB
  rw [extractLsb'_signExtend _ (by decide), beq_self_eq_true, getLsbD_zero_signExtend_append]
  rfl

theorem immU_fits (w : Word) : immFitsU (immU w) = true :=
  beq_iff_eq.2 BitVec.extractLsb'_append_eq_right

theorem immJ_fits (w : Word) : immFitsJ (immJ w) = true := by
  unfold immFitsJ immJ
  rw [extractLsb'_signExtend _ (by decide), beq_self_eq_true, getLsbD_zero_signExtend_append]
  rfl

/-! ## The bits an encodable immediate puts into its word determine it (R85) -/

section
variable {u v : Word}

/-- Two words that agree on two adjacent fields agree on the field they make up. -/
theorem extractLsb'_glue {start n : Nat} (m : Nat)
    (hhigh : u.extractLsb' (start + n) m = v.extractLsb' (start + n) m)
    (hlow : u.extractLsb' start n = v.extractLsb' start n) :
    u.extractLsb' start (m + n) = v.extractLsb' start (m + n) := by
  rw [← BitVec.extractLsb'_append_extractLsb'_eq_extractLsb' rfl, hhigh, hlow,
    BitVec.extractLsb'_append_extractLsb'_eq_extractLsb' rfl]

theorem extractLsb'_zero_of_getLsbD (hu : u.getLsbD 0 = false) (hv : v.getLsbD 0 = false) :
    u.extractLsb' 0 1 = v.extractLsb' 0 1 := by
  apply BitVec.eq_of_getLsbD_eq
  intro i hi
  obtain rfl : i = 0 := by omega
  simp only [BitVec.getLsbD_extractLsb', Nat.zero_add, hu, hv]

theorem immFitsI_ext (hu : immFitsI u = true) (hv : immFitsI v = true)
    (h : u.extractLsb' 0 12 = v.extractLsb' 0 12) : u = v := by
  unfold immFitsI at hu hv
  rw [beq_iff_eq.1 hu, beq_iff_eq.1 hv, h]

theorem immFitsB_ext (hu : immFitsB u = true) (hv : immFitsB v = true)
    (h12 : u.extractLsb' 12 1 = v.extractLsb' 12 1) (h11 : u.extractLsb' 11 1 = v.extractLsb' 11 1)
    (h5 : u.extractLsb' 5 6 = v.extractLsb' 5 6) (h1 : u.extractLsb' 1 4 = v.extractLsb' 1 4) : u = v := by
  simp only [immFitsB, Bool.and_eq_true, Bool.not_eq_true', beq_iff_eq] at hu hv
  obtain ⟨hu0, hu⟩ := hu
  obtain ⟨hv0, hv⟩ := hv
  have h : u.extractLsb' 0 13 = v.extractLsb' 0 13 :=
    extractLsb'_glue 1 h12 <| extractLsb'_glue 1 h11 <| extractLsb'_glue 6 h5 <| extractLsb'_glue 4 h1 <|
      extractLsb'_zero_of_getLsbD hu0 hv0
  rw [hu, hv, h]

theorem immFitsU_ext (hu : immFitsU u = true) (hv : immFitsU v = true)
    (h : u.extractLsb' 12 20 = v.extractLsb' 12 20) : u = v := by
  unfold immFitsU at hu hv
  have hlow : u.extractLsb' 0 12 = v.extractLsb' 0 12 := (beq_iff_eq.1 hu).trans (beq_iff_eq.1 hv).symm
  have hall : u.extractLsb' 0 32 = v.extractLsb' 0 32 := extractLsb'_glue 20 h hlow
  rwa [BitVec.extractLsb'_eq_self, BitVec.extractLsb'_eq_self] at hall

theorem immFitsJ_ext (hu : immFitsJ u = true) (hv : immFitsJ v = true)
    (h20 : u.extractLsb' 20 1 = v.extractLsb' 20 1) (h12 : u.extractLsb' 12 8 = v.extractLsb' 12 8)
    (h11 : u.extractLsb' 11 1 = v.extractLsb' 11 1) (h1 : u.extractLsb' 1 10 = v.extractLsb' 1 10) : u = v := by
  simp only [immFitsJ, Bool.and_eq_true, Bool.not_eq_true', beq_iff_eq] at hu hv
  obtain ⟨hu0, hu⟩ := hu
  obtain ⟨hv0, hv⟩ := hv
  have h : u.extractLsb' 0 21 = v.extractLsb' 0 21 :=
    extractLsb'_glue 1 h20 <| extractLsb'_glue 8 h12 <| extractLsb'_glue 1 h11 <| extractLsb'_glue 10 h1 <|
      extractLsb'_zero_of_getLsbD hu0 hv0
  rw [hu, hv, h]

end

/-! ## Equal words have equal fields -/

section
variable {f7 f7' : BitVec 7} {f3 f3' : BitVec 3} {op op' : BitVec 7} {rd rd' a a' b b' : RegIdx} {v v' : Word}

theorem wordR_inj_iff : wordR f7 f3 op rd a b = wordR f7' f3' op' rd' a' b' ↔
    (((((f7 = f7' ∧ b = b') ∧ a = a') ∧ f3 = f3') ∧ rd = rd') ∧ op = op') := by
  unfold wordR
  rw [append_inj_iff, append_inj_iff, append_inj_iff, append_inj_iff, append_inj_iff]

theorem wordI_inj_iff : wordI f3 op rd a v = wordI f3' op' rd' a' v' ↔
    ((((v.extractLsb' 0 12 = v'.extractLsb' 0 12 ∧ a = a') ∧ f3 = f3') ∧ rd = rd') ∧ op = op') := by
  unfold wordI
  rw [append_inj_iff, append_inj_iff, append_inj_iff, append_inj_iff]

theorem wordS_inj_iff : wordS f3 op a b v = wordS f3' op' a' b' v' ↔
    (((((v.extractLsb' 5 7 = v'.extractLsb' 5 7 ∧ b = b') ∧ a = a') ∧ f3 = f3') ∧
      v.extractLsb' 0 5 = v'.extractLsb' 0 5) ∧ op = op') := by
  unfold wordS
  rw [append_inj_iff, append_inj_iff, append_inj_iff, append_inj_iff, append_inj_iff]

theorem wordB_inj_iff : wordB f3 op a b v = wordB f3' op' a' b' v' ↔
    (((((((v.extractLsb' 12 1 = v'.extractLsb' 12 1 ∧ v.extractLsb' 5 6 = v'.extractLsb' 5 6) ∧ b = b') ∧ a = a') ∧
      f3 = f3') ∧ v.extractLsb' 1 4 = v'.extractLsb' 1 4) ∧ v.extractLsb' 11 1 = v'.extractLsb' 11 1) ∧ op = op') := by
  unfold wordB
  rw [append_inj_iff, append_inj_iff, append_inj_iff, append_inj_iff, append_inj_iff, append_inj_iff, append_inj_iff]

theorem wordU_inj_iff : wordU op rd v = wordU op' rd' v' ↔
    ((v.extractLsb' 12 20 = v'.extractLsb' 12 20 ∧ rd = rd') ∧ op = op') := by
  unfold wordU
  rw [append_inj_iff, append_inj_iff]

theorem wordJ_inj_iff : wordJ op rd v = wordJ op' rd' v' ↔
    (((((v.extractLsb' 20 1 = v'.extractLsb' 20 1 ∧ v.extractLsb' 1 10 = v'.extractLsb' 1 10) ∧
      v.extractLsb' 11 1 = v'.extractLsb' 11 1) ∧ v.extractLsb' 12 8 = v'.extractLsb' 12 8) ∧ rd = rd') ∧
      op = op') := by
  unfold wordJ
  rw [append_inj_iff, append_inj_iff, append_inj_iff, append_inj_iff, append_inj_iff]

end

/-! ## Reading what was written: the word is its own fields put together, so they are the fields it was made of -/

section
variable (f7 : BitVec 7) (f3 : BitVec 3) (op : BitVec 7) (rd a b : RegIdx) {v : Word}

theorem readR_wordR (c : RegIdx → RegIdx → RegIdx → Instr) : readR c (wordR f7 f3 op rd a b) = c rd a b := by
  obtain ⟨⟨⟨⟨⟨-, hb⟩, ha⟩, -⟩, hrd⟩, -⟩ := wordR_inj_iff.1 (wordR_of_fields (wordR f7 f3 op rd a b))
  rw [readR, hrd, ha, hb]

theorem readI_wordI (c : RegIdx → RegIdx → Word → Instr) (hv : immFitsI v = true) :
    readI c (wordI f3 op rd a v) = c rd a v := by
  obtain ⟨⟨⟨⟨himm, ha⟩, -⟩, hrd⟩, -⟩ := wordI_inj_iff.1 (wordI_of_fields (wordI f3 op rd a v))
  rw [readI, hrd, ha, immFitsI_ext (immI_fits _) hv himm]

theorem readS_wordS (c : RegIdx → RegIdx → Word → Instr) (hv : immFitsI v = true) :
    readS c (wordS f3 op a b v) = c a b v := by
  obtain ⟨⟨⟨⟨⟨hhigh, hb⟩, ha⟩, -⟩, hlow⟩, -⟩ := wordS_inj_iff.1 (wordS_of_fields (wordS f3 op a b v))
  rw [readS, ha, hb, immFitsI_ext (immS_fits _) hv (extractLsb'_glue 7 hhigh hlow)]

theorem readB_wordB (c : RegIdx → RegIdx → Word → Instr) (hv : immFitsB v = true) :
    readB c (wordB f3 op a b v) = c a b v := by
  obtain ⟨⟨⟨⟨⟨⟨⟨h12, h5⟩, hb⟩, ha⟩, -⟩, h1⟩, h11⟩, -⟩ := wordB_inj_iff.1 (wordB_of_fields (wordB f3 op a b v))
  rw [readB, ha, hb, immFitsB_ext (immB_fits _) hv h12 h11 h5 h1]

theorem readU_wordU (c : RegIdx → Word → Instr) (hv : immFitsU v = true) : readU c (wordU op rd v) = c rd v := by
  obtain ⟨⟨himm, hrd⟩, -⟩ := wordU_inj_iff.1 (wordU_of_fields (wordU op rd v))
  rw [readU, hrd, immFitsU_ext (immU_fits _) hv himm]

theorem readJ_wordJ (c : RegIdx → Word → Instr) (hv : immFitsJ v = true) : readJ c (wordJ op rd v) = c rd v := by
  obtain ⟨⟨⟨⟨⟨h20, h1⟩, h11⟩, h12⟩, hrd⟩, -⟩ := wordJ_inj_iff.1 (wordJ_of_fields (wordJ op rd v))
  rw [readJ, hrd, immFitsJ_ext (immJ_fits _) hv h20 h12 h11 h1]

end

/-! ## O1: the word of an instruction decodes to it, by the place of its row in the table -/

section
variable {name : String} {f7 : BitVec 7} {f3 : BitVec 3} {op : BitVec 7} {rd a b : RegIdx} {v : Word} (k : Nat)

theorem decode_of_row {w : Word} {r : OpRow} {i : Instr} (hrow : opRows[k]? = some r) (hw : w &&& r.mask = r.bits)
    (hread : r.read w = i) : decode w = .ok i := by
  rw [decode_of_matches (row_mem k r hrow) hw, hread]

theorem decode_wordR {c : RegIdx → RegIdx → RegIdx → Instr}
    (hrow : opRows[k]? = some ⟨name, f7 ++ 0#10 ++ f3 ++ 0#5 ++ op, 0xFE00707F#32, readR c⟩) :
    decode (wordR f7 f3 op rd a b) = .ok (c rd a b) :=
  decode_of_row k hrow (wordR_mask ..) (readR_wordR f7 f3 op rd a b c)

theorem decode_wordI {c : RegIdx → RegIdx → Word → Instr} (hv : immFitsI v = true)
    (hrow : opRows[k]? = some ⟨name, 0#17 ++ f3 ++ 0#5 ++ op, 0x0000707F#32, readI c⟩) :
    decode (wordI f3 op rd a v) = .ok (c rd a v) :=
  decode_of_row k hrow (wordI_mask ..) (readI_wordI f3 op rd a c hv)

theorem decode_wordS {c : RegIdx → RegIdx → Word → Instr} (hv : immFitsI v = true)
    (hrow : opRows[k]? = some ⟨name, 0#17 ++ f3 ++ 0#5 ++ op, 0x0000707F#32, readS c⟩) :
    decode (wordS f3 op a b v) = .ok (c a b v) :=
  decode_of_row k hrow (wordS_mask ..) (readS_wordS f3 op a b c hv)

theorem decode_wordB {c : RegIdx → RegIdx → Word → Instr} (hv : immFitsB v = true)
    (hrow : opRows[k]? = some ⟨name, 0#17 ++ f3 ++ 0#5 ++ op, 0x0000707F#32, readB c⟩) :
    decode (wordB f3 op a b v) = .ok (c a b v) :=
  decode_of_row k hrow (wordB_mask ..) (readB_wordB f3 op a b c hv)

theorem decode_wordU {c : RegIdx → Word → Instr} (hv : immFitsU v = true)
    (hrow : opRows[k]? = some ⟨name, 0#25 ++ op, 0x0000007F#32, readU c⟩) :
    decode (wordU op rd v) = .ok (c rd v) :=
  decode_of_row k hrow (wordU_mask ..) (readU_wordU op rd c hv)

theorem decode_wordJ {c : RegIdx → Word → Instr} (hv : immFitsJ v = true)
    (hrow : opRows[k]? = some ⟨name, 0#25 ++ op, 0x0000007F#32, readJ c⟩) :
    decode (wordJ op rd v) = .ok (c rd v) :=
  decode_of_row k hrow (wordJ_mask ..) (readJ_wordJ op rd c hv)

end

/-- Settles O1: each constructor's row, by the layout the row is read in. -/
theorem decodeEncodeRoundTrip : Obligations.DecodeEncodeRoundTrip := by
  intro i hwf
  cases i with
  | add => exact decode_wordR 0 rfl
  | sub => exact decode_wordR 1 rfl
  | sll => exact decode_wordR 2 rfl
  | slt => exact decode_wordR 3 rfl
  | sltu => exact decode_wordR 4 rfl
  | xor => exact decode_wordR 5 rfl
  | srl => exact decode_wordR 6 rfl
  | sra => exact decode_wordR 7 rfl
  | or => exact decode_wordR 8 rfl
  | and => exact decode_wordR 9 rfl
  | addi => exact decode_wordI 10 hwf rfl
  | slti => exact decode_wordI 11 hwf rfl
  | sltiu => exact decode_wordI 12 hwf rfl
  | xori => exact decode_wordI 13 hwf rfl
  | ori => exact decode_wordI 14 hwf rfl
  | andi => exact decode_wordI 15 hwf rfl
  | slli => exact decode_wordR 16 rfl
  | srli => exact decode_wordR 17 rfl
  | srai => exact decode_wordR 18 rfl
  | lb => exact decode_wordI 19 hwf rfl
  | lh => exact decode_wordI 20 hwf rfl
  | lw => exact decode_wordI 21 hwf rfl
  | lbu => exact decode_wordI 22 hwf rfl
  | lhu => exact decode_wordI 23 hwf rfl
  | jalr => exact decode_wordI 24 hwf rfl
  | sb => exact decode_wordS 25 hwf rfl
  | sh => exact decode_wordS 26 hwf rfl
  | sw => exact decode_wordS 27 hwf rfl
  | beq => exact decode_wordB 28 hwf rfl
  | bne => exact decode_wordB 29 hwf rfl
  | blt => exact decode_wordB 30 hwf rfl
  | bge => exact decode_wordB 31 hwf rfl
  | bltu => exact decode_wordB 32 hwf rfl
  | bgeu => exact decode_wordB 33 hwf rfl
  | lui => exact decode_wordU 34 hwf rfl
  | auipc => exact decode_wordU 35 hwf rfl
  | jal => exact decode_wordJ 36 hwf rfl

/-! ## O2: a row of the table reads a word without loss -/

/-- A row is faithful when what it reads from a word it matches can be encoded, and has that word (R86: "there are no
don't-care bits"). -/
def OpRow.Faithful (r : OpRow) : Prop := ∀ w, w &&& r.mask = r.bits → (r.read w).wf = true ∧ encode (r.read w) = w

/-! What the fixed bits of a row say of the fields. -/

section
variable {w : Word} {f7 : BitVec 7} {f3 : BitVec 3} {op : BitVec 7}

theorem matchesR_iff : w &&& 0xFE00707F#32 = f7 ++ 0#10 ++ f3 ++ 0#5 ++ op ↔
    funct7Of w = f7 ∧ funct3Of w = f3 ∧ opcodeOf w = op := by
  conv_lhs => lhs; rw [← wordR_of_fields w, wordR_mask]
  rw [append_inj_iff, append_inj_iff, append_inj_iff, append_inj_iff]
  simp only [and_true, and_assoc]

theorem matchesI_iff : w &&& 0x0000707F#32 = 0#17 ++ f3 ++ 0#5 ++ op ↔ funct3Of w = f3 ∧ opcodeOf w = op := by
  conv_lhs => lhs; rw [← wordI_of_fields w, wordI_mask]
  rw [append_inj_iff, append_inj_iff, append_inj_iff]
  simp only [and_true, true_and]

theorem matchesU_iff : w &&& 0x0000007F#32 = 0#25 ++ op ↔ opcodeOf w = op := by
  conv_lhs => lhs; rw [← wordU_of_fields w, wordU_mask]
  rw [append_inj_iff]
  simp only [true_and]

end

section
variable {name : String} {bits : Word} {f7 : BitVec 7} {f3 : BitVec 3} {op : BitVec 7}

theorem faithful_readR {c : RegIdx → RegIdx → RegIdx → Instr}
    (hc : ∀ rd a b, (c rd a b).wf = true ∧ encode (c rd a b) = wordR f7 f3 op rd a b)
    (hbits : bits = f7 ++ 0#10 ++ f3 ++ 0#5 ++ op) : OpRow.Faithful ⟨name, bits, 0xFE00707F#32, readR c⟩ := by
  intro w hw
  obtain ⟨rfl, rfl, rfl⟩ := matchesR_iff.1 (hw.trans hbits)
  obtain ⟨hwf, hencode⟩ := hc (rdOf w) (rs1Of w) (rs2Of w)
  exact ⟨hwf, hencode.trans (wordR_of_fields w)⟩

theorem faithful_readI {c : RegIdx → RegIdx → Word → Instr}
    (hc : ∀ rd a v, (c rd a v).wf = immFitsI v ∧ encode (c rd a v) = wordI f3 op rd a v)
    (hbits : bits = 0#17 ++ f3 ++ 0#5 ++ op) : OpRow.Faithful ⟨name, bits, 0x0000707F#32, readI c⟩ := by
  intro w hw
  obtain ⟨rfl, rfl⟩ := matchesI_iff.1 (hw.trans hbits)
  obtain ⟨hwf, hencode⟩ := hc (rdOf w) (rs1Of w) (immI w)
  exact ⟨hwf.trans (immI_fits w), hencode.trans (wordI_of_fields w)⟩

theorem faithful_readS {c : RegIdx → RegIdx → Word → Instr}
    (hc : ∀ a b v, (c a b v).wf = immFitsI v ∧ encode (c a b v) = wordS f3 op a b v)
    (hbits : bits = 0#17 ++ f3 ++ 0#5 ++ op) : OpRow.Faithful ⟨name, bits, 0x0000707F#32, readS c⟩ := by
  intro w hw
  obtain ⟨rfl, rfl⟩ := matchesI_iff.1 (hw.trans hbits)
  obtain ⟨hwf, hencode⟩ := hc (rs1Of w) (rs2Of w) (immS w)
  exact ⟨hwf.trans (immS_fits w), hencode.trans (wordS_of_fields w)⟩

theorem faithful_readB {c : RegIdx → RegIdx → Word → Instr}
    (hc : ∀ a b v, (c a b v).wf = immFitsB v ∧ encode (c a b v) = wordB f3 op a b v)
    (hbits : bits = 0#17 ++ f3 ++ 0#5 ++ op) : OpRow.Faithful ⟨name, bits, 0x0000707F#32, readB c⟩ := by
  intro w hw
  obtain ⟨rfl, rfl⟩ := matchesI_iff.1 (hw.trans hbits)
  obtain ⟨hwf, hencode⟩ := hc (rs1Of w) (rs2Of w) (immB w)
  exact ⟨hwf.trans (immB_fits w), hencode.trans (wordB_of_fields w)⟩

theorem faithful_readU {c : RegIdx → Word → Instr}
    (hc : ∀ rd v, (c rd v).wf = immFitsU v ∧ encode (c rd v) = wordU op rd v)
    (hbits : bits = 0#25 ++ op) : OpRow.Faithful ⟨name, bits, 0x0000007F#32, readU c⟩ := by
  intro w hw
  obtain rfl := matchesU_iff.1 (hw.trans hbits)
  obtain ⟨hwf, hencode⟩ := hc (rdOf w) (immU w)
  exact ⟨hwf.trans (immU_fits w), hencode.trans (wordU_of_fields w)⟩

theorem faithful_readJ {c : RegIdx → Word → Instr}
    (hc : ∀ rd v, (c rd v).wf = immFitsJ v ∧ encode (c rd v) = wordJ op rd v)
    (hbits : bits = 0#25 ++ op) : OpRow.Faithful ⟨name, bits, 0x0000007F#32, readJ c⟩ := by
  intro w hw
  obtain rfl := matchesU_iff.1 (hw.trans hbits)
  obtain ⟨hwf, hencode⟩ := hc (rdOf w) (immJ w)
  exact ⟨hwf.trans (immJ_fits w), hencode.trans (wordJ_of_fields w)⟩

end

theorem rowsR_faithful : ∀ r ∈ rowsR, r.Faithful := by
  simp only [rowsR, List.forall_mem_cons, List.not_mem_nil, IsEmpty.forall_iff, implies_true, and_true]
  and_intros <;> exact faithful_readR (fun _ _ _ => ⟨rfl, rfl⟩) rfl

theorem rowsImm_faithful : ∀ r ∈ rowsImm, r.Faithful := by
  simp only [rowsImm, List.forall_mem_cons, List.not_mem_nil, IsEmpty.forall_iff, implies_true, and_true]
  refine ⟨?_, ?_, ?_, ?_, ?_, ?_, ?slli, ?srli, ?srai⟩
  case slli | srli | srai => exact faithful_readR (fun _ _ _ => ⟨rfl, rfl⟩) rfl
  all_goals exact faithful_readI (fun _ _ _ => ⟨rfl, rfl⟩) rfl

theorem rowsMem_faithful : ∀ r ∈ rowsMem, r.Faithful := by
  simp only [rowsMem, List.forall_mem_cons, List.not_mem_nil, IsEmpty.forall_iff, implies_true, and_true]
  refine ⟨?_, ?_, ?_, ?_, ?_, ?_, ?sb, ?sh, ?sw⟩
  case sb | sh | sw => exact faithful_readS (fun _ _ _ => ⟨rfl, rfl⟩) rfl
  all_goals exact faithful_readI (fun _ _ _ => ⟨rfl, rfl⟩) rfl

theorem rowsFlow_faithful : ∀ r ∈ rowsFlow, r.Faithful := by
  simp only [rowsFlow, List.forall_mem_cons, List.not_mem_nil, IsEmpty.forall_iff, implies_true, and_true]
  refine ⟨?_, ?_, ?_, ?_, ?_, ?_, ?lui, ?auipc, ?jal⟩
  case lui | auipc => exact faithful_readU (fun _ _ => ⟨rfl, rfl⟩) rfl
  case jal => exact faithful_readJ (fun _ _ => ⟨rfl, rfl⟩) rfl
  all_goals exact faithful_readB (fun _ _ _ => ⟨rfl, rfl⟩) rfl

theorem opRows_faithful : ∀ r ∈ opRows, r.Faithful := by
  simp only [opRows, List.forall_mem_append]
  exact ⟨⟨⟨rowsR_faithful, rowsImm_faithful⟩, rowsMem_faithful⟩, rowsFlow_faithful⟩

/-- Settles O2: the row that accepts the word is faithful. -/
theorem encodeDecodeRoundTrip : Obligations.EncodeDecodeRoundTrip := by
  intro w i hdecode
  obtain ⟨r, hr, hmatch, rfl⟩ := decode_ok_cases w i hdecode
  exact opRows_faithful r hr w hmatch

/-! ## O3: the rows are disjoint -/

theorem opRows_bits_masked : ∀ r ∈ opRows, r.bits &&& r.mask = r.bits := by
  decide

/-- Two rows differ exactly when some bit that both masks fix is fixed differently. -/
theorem OpRow.differs_iff {r q : OpRow} (hr : r.bits &&& r.mask = r.bits) (hq : q.bits &&& q.mask = q.bits) :
    r.Differs q ↔ r.mask &&& q.mask &&& (r.bits ^^^ q.bits) ≠ 0#32 := by
  have hxor : r.mask &&& q.mask &&& (r.bits ^^^ q.bits) = (r.bits &&& q.mask) ^^^ (q.bits &&& r.mask) := by
    conv_rhs => rw [← hr, ← hq]
    apply BitVec.eq_of_getLsbD_eq
    intro i hi
    simp only [BitVec.getLsbD_and, BitVec.getLsbD_xor]
    generalize r.bits.getLsbD i = rb, r.mask.getLsbD i = rm, q.bits.getLsbD i = qb, q.mask.getLsbD i = qm
    revert rb rm qb qm
    decide
  rw [hxor, ne_eq, BitVec.xor_eq_zero_iff]

theorem opRows_differ {j k : Nat} {r q : OpRow} (hne : j ≠ k) (hj : opRows[j]? = some r) (hk : opRows[k]? = some q) :
    r.Differs q := by
  obtain ⟨hjlt, rfl⟩ := List.getElem?_eq_some_iff.1 hj
  obtain ⟨hklt, rfl⟩ := List.getElem?_eq_some_iff.1 hk
  have hpairwise := List.pairwise_iff_getElem.1 opRows_pairwise_differ
  rcases Nat.lt_or_gt_of_ne hne with hlt | hgt
  · exact hpairwise j k hjlt hklt hlt
  · exact OpRow.differs_symm.symm _ _ (hpairwise k j hklt hjlt hgt)

/-- Settles O3: the rows differ pairwise, and a word cannot match two rows that differ. -/
theorem noWordMatchesTwoRows : Obligations.NoWordMatchesTwoRows := by
  refine ⟨rfl, fun j k r q hne hj hk => ?_, fun w j k r q hj hk hwr hwq => ?_⟩
  · have hr := opRows_bits_masked r (row_mem j r hj)
    have hq := opRows_bits_masked q (row_mem k q hk)
    exact (OpRow.differs_iff hr hq).1 (opRows_differ hne hj hk)
  · by_contra hne
    exact OpRow.not_differs_of_matches hwr hwq (opRows_differ hne hj hk)

end Sys2Proof
end

section
/-! The memory accesses. What each of the four outcomes of the access checks (R50, R51) means in the words of the
statements, and the bytes a load reads and a store leaves. -/

namespace Sys2Proof.Machine

/-! ## The frame of each ending of an instruction -/

theorem stop_stopsWith (s : State) (st : Status) : s.StopsWith (s.stop st) st :=
  ⟨rfl, rfl, fun _ => rfl, fun _ => rfl, rfl, rfl⟩

theorem setPc_writesNothing (s : State) (t : Word) : s.WritesNothing (s.setPc t) :=
  ⟨fun _ => rfl, fun _ => rfl, rfl, rfl, rfl⟩

theorem advance_writesNothing (s : State) : s.WritesNothing s.advance :=
  ⟨fun _ => rfl, fun _ => rfl, rfl, rfl, rfl⟩

theorem link_writesReg (s : State) (rd : RegIdx) (v t : Word) : s.WritesReg ((s.writeReg rd v).setPc t) rd v :=
  ⟨readReg_writeReg s rd v, writeReg_readByte s rd v, writeReg_mem s rd v, writeReg_status s rd v,
    writeReg_launch s rd v⟩

/-! ## The access checks -/

section
variable {s : State} {mis absent : Cause} {a : Word} {n : Width}

theorem State.InData.not_touchesImage (h : s.InData a n.bytes) : ¬ s.TouchesImage a n.bytes := by
  rintro ⟨k, hk, himage⟩
  rw [inData_not_inImage _ _ (h k hk)] at himage
  cases himage

theorem accessCheck_of_misaligned (halign : ¬ Aligned a n.bytes) :
    s.accessCheck mis absent a n = some (.faulted mis a) := by
  rcases accessCheck_cases s mis absent a n with ⟨-, e⟩ | ⟨h, -⟩ | ⟨h, -⟩ | ⟨h, -⟩
  · exact e
  all_goals exact absurd h halign

theorem accessCheck_of_image (halign : Aligned a n.bytes) (himage : s.TouchesImage a n.bytes) :
    s.accessCheck mis absent a n = some (.refused .dataAccessToProgramImage) := by
  rcases accessCheck_cases s mis absent a n with ⟨h, -⟩ | ⟨-, -, e⟩ | ⟨-, hout, -⟩ | ⟨-, hdata, -⟩
  · exact absurd halign h
  · exact e
  · obtain ⟨k, hk, hin⟩ := himage
    rw [hout k hk] at hin
    cases hin
  · exact absurd himage (State.InData.not_touchesImage hdata)

theorem accessCheck_of_outside (halign : Aligned a n.bytes) (himage : ¬ s.TouchesImage a n.bytes)
    (hdata : ¬ s.InData a n.bytes) : s.accessCheck mis absent a n = some (.faulted absent a) := by
  rcases accessCheck_cases s mis absent a n with ⟨h, -⟩ | ⟨-, h, -⟩ | ⟨-, -, -, e⟩ | ⟨-, h, -⟩
  · exact absurd halign h
  · exact absurd h himage
  · exact e
  · exact absurd h hdata

/-- The access is performed exactly when it is aligned and within DATA_REGION. -/
theorem accessCheck_none_iff :
    s.accessCheck mis absent a n = none ↔ Aligned a n.bytes ∧ s.InData a n.bytes := by
  rcases accessCheck_cases s mis absent a n with ⟨h, e⟩ | ⟨-, himage, e⟩ | ⟨-, -, ⟨k, hk, hout⟩, e⟩ | ⟨h, hdata, e⟩ <;>
    rw [e]
  · simp only [reduceCtorEq, false_iff]
    exact fun hok => h hok.1
  · simp only [reduceCtorEq, false_iff]
    exact fun hok => State.InData.not_touchesImage hok.2 himage
  · simp only [reduceCtorEq, false_iff]
    intro hok
    rw [hok.2 k hk] at hout
    cases hout
  · exact ⟨fun _ => ⟨h, hdata⟩, fun _ => rfl⟩

/-- No check answers Running: the access is performed, or the run ends. -/
theorem accessCheck_ne_running {st : Status} (h : s.accessCheck mis absent a n = some st) : st ≠ .running := by
  rcases accessCheck_stop _ _ _ _ _ _ h with rfl | rfl | rfl <;> simp

/-- An access within DATA_REGION does not wrap (R50, R61). -/
theorem State.InData.end_le (h : s.InData a n.bytes) : a.toNat + n.bytes ≤ 2 ^ 32 := by
  have hpos : 0 < n.bytes := by cases n <;> decide
  have hlast := inData_lt _ _ (h (n.bytes - 1) (by omega))
  omega

end

/-! ## The bytes of a load (R44) -/

theorem getLsbD_append_byte_zero {n : Nat} (x : BitVec n) (b : Byte) {j : Nat} (hj : j < 8) :
    (x ++ b).getLsbD (8 * 0 + j) = b.getLsbD j := by
  rw [BitVec.getLsbD_append, Nat.mul_zero, Nat.zero_add, if_pos hj]

theorem getLsbD_append_byte_succ {n : Nat} (x : BitVec n) (b : Byte) (k j : Nat) :
    (x ++ b).getLsbD (8 * (k + 1) + j) = x.getLsbD (8 * k + j) := by
  rw [BitVec.getLsbD_append, if_neg (by omega), show 8 * (k + 1) + j - 8 = 8 * k + j by omega]

/-- Bit `8 k + j` of what a load reads is bit `j` of its byte `k`. -/
theorem readLE_getLsbD (s : State) (a : Nat) (n : Width) {k j : Nat} (hk : k < n.bytes) (hj : j < 8) :
    (s.readLE a n).getLsbD (8 * k + j) = (s.readByte (a + k)).getLsbD j := by
  cases n with
  | byte =>
    obtain rfl : k = 0 := Nat.lt_one_iff.1 hk
    simp [State.readLE]
  | half =>
    unfold State.readLE
    interval_cases k
    · exact getLsbD_append_byte_zero _ _ hj
    · rw [getLsbD_append_byte_succ, Nat.mul_zero, Nat.zero_add]
  | word =>
    unfold State.readLE
    interval_cases k
    · exact getLsbD_append_byte_zero _ _ hj
    · rw [getLsbD_append_byte_succ]
      exact getLsbD_append_byte_zero _ _ hj
    · rw [getLsbD_append_byte_succ, getLsbD_append_byte_succ]
      exact getLsbD_append_byte_zero _ _ hj
    · rw [getLsbD_append_byte_succ, getLsbD_append_byte_succ, getLsbD_append_byte_succ, Nat.mul_zero, Nat.zero_add]

/-- A value that agrees with the bytes read in its low bits holds those bytes. -/
theorem holdsBytes_of_low_bits {s : State} {a : Nat} {n : Width} {v : Word}
    (hv : ∀ i, i < n.bits → v.getLsbD i = (s.readLE a n).getLsbD i) : s.HoldsBytes a n.bytes v := by
  intro k j hk hj
  have hbits : 8 * k + j < n.bits := by cases n <;> simp only [Width.bytes, Width.bits] at * <;> omega
  rw [hv _ hbits, readLE_getLsbD s a n hk hj]

theorem signExtend_holdsBytes (s : State) (a : Nat) (n : Width) :
    s.HoldsBytes a n.bytes ((s.readLE a n).signExtend 32) := by
  refine holdsBytes_of_low_bits fun i hi => ?_
  have hwidth : n.bits ≤ 32 := by cases n <;> decide
  rw [BitVec.getLsbD_signExtend]
  simp [hi, show i < 32 by omega]

theorem setWidth_holdsBytes (s : State) (a : Nat) (n : Width) :
    s.HoldsBytes a n.bytes ((s.readLE a n).setWidth 32) := by
  refine holdsBytes_of_low_bits fun i hi => ?_
  have hwidth : n.bits ≤ 32 := by cases n <;> decide
  rw [BitVec.getLsbD_setWidth]
  simp [show i < 32 by omega]

theorem word_holdsBytes (s : State) (a : Nat) : s.HoldsBytes a 4 (s.readLE a .word) :=
  holdsBytes_of_low_bits (n := .word) fun _ _ => rfl

theorem signExtend_upperBits {n : Nat} (x : BitVec n) (hpos : 0 < n) (hn : n ≤ 32) :
    UpperBits (x.signExtend 32) n ((x.signExtend 32).getLsbD (n - 1)) := by
  intro i hlow hhigh
  rw [BitVec.getLsbD_signExtend, BitVec.getLsbD_signExtend, BitVec.msb_eq_getLsbD_last]
  simp [hhigh, show ¬ i < n by omega, show n - 1 < 32 by omega, hpos]

theorem setWidth_upperBits {n : Nat} (x : BitVec n) : UpperBits (x.setWidth 32) n false := by
  intro i hlow _
  rw [BitVec.getLsbD_setWidth, BitVec.getLsbD_of_ge x i hlow, Bool.and_false]

/-! ## A load -/

section
variable {s : State} {n : Width} {rs1 : RegIdx} {imm : Word}

/-- A load that passes its checks writes what it read, extended. -/
theorem load_completes (f : BitVec n.bits → Word) (rd : RegIdx) (halign : Aligned (s.ea rs1 imm) n.bytes)
    (hdata : s.InData (s.ea rs1 imm) n.bytes) :
    s.load n f rd rs1 imm = s.result rd (f (s.readLE (s.ea rs1 imm).toNat n)) := by
  rcases load_cases s n f rd rs1 imm with ⟨st, hcheck, -⟩ | ⟨-, e⟩
  · rw [accessCheck_none_iff.2 ⟨halign, hdata⟩] at hcheck
    cases hcheck
  · exact e

/-- A load that fails its checks ends with the status they give. -/
theorem load_stops (f : BitVec n.bits → Word) (rd : RegIdx) {st : Status}
    (hcheck : s.accessCheck .loadAddressMisaligned .loadAccessFault (s.ea rs1 imm) n = some st) :
    s.load n f rd rs1 imm = s.stop st := by
  rcases load_cases s n f rd rs1 imm with ⟨st', hcheck', e⟩ | ⟨hnone, -⟩
  · rw [e, Option.some.inj (hcheck.symm.trans hcheck')]
  · rw [hcheck] at hnone
    cases hnone

/-! ## A store -/

theorem store_completes (v : BitVec n.bits) (halign : Aligned (s.ea rs1 imm) n.bytes)
    (hdata : s.InData (s.ea rs1 imm) n.bytes) :
    s.store n v rs1 imm =
      ({ s with mem := Memory.putBytes s.mem (s.ea rs1 imm).toNat (bytesLE n v) } : State).advance := by
  rcases store_cases s n v rs1 imm with ⟨st, hcheck, -⟩ | ⟨-, e⟩
  · rw [accessCheck_none_iff.2 ⟨halign, hdata⟩] at hcheck
    cases hcheck
  · exact e

theorem store_stops (v : BitVec n.bits) {st : Status}
    (hcheck : s.accessCheck .storeAddressMisaligned .storeAccessFault (s.ea rs1 imm) n = some st) :
    s.store n v rs1 imm = s.stop st := by
  rcases store_cases s n v rs1 imm with ⟨st', hcheck', e⟩ | ⟨hnone, -⟩
  · rw [e, Option.some.inj (hcheck.symm.trans hcheck')]
  · rw [hcheck] at hnone
    cases hnone

end

/-- Byte `k` of what a store writes, when it writes the low bits of `v`. -/
theorem bytesLE_getElem? (n : Width) (v : Word) {k : Nat} (hk : k < n.bytes) :
    (bytesLE n (v.extractLsb' 0 n.bits))[k]? = some (v.extractLsb' (8 * k) 8) := by
  cases n with
  | byte =>
    obtain rfl : k = 0 := Nat.lt_one_iff.1 hk
    rfl
  | half => interval_cases k <;> exact congrArg some (BitVec.extractLsb'_extractLsb'_of_le (Nat.le_of_ble_eq_true rfl))
  | word => interval_cases k <;> exact congrArg some (BitVec.extractLsb'_extractLsb'_of_le (Nat.le_of_ble_eq_true rfl))

/-- A store of the low bits of `v` leaves exactly its bytes changed. -/
theorem putBytes_writesBytes (s : State) (a : Nat) (n : Width) (v : Word) :
    s.WritesBytes ({ s with mem := Memory.putBytes s.mem a (bytesLE n (v.extractLsb' 0 n.bits)) } : State).advance
      a n.bytes v := by
  refine ⟨fun k hk => ?_, fun b hb => ?_, fun _ => rfl, rfl, rfl⟩
  · rw [advance_readByte, readByte_putBytes, if_pos (by rw [bytesLE_length]; omega), Nat.add_sub_cancel_left,
      bytesLE_getElem? n v hk]
    rfl
  · rw [advance_readByte, readByte_putBytes, if_neg]
    rintro ⟨hlow, hhigh⟩
    rw [bytesLE_length] at hhigh
    exact hb (b - a) (by omega) (by omega)

/-! ## An instruction that is a load or a store -/

section
variable {s : State} {n : Width} {rd rs1 : RegIdx} {imm : Word} {i : Instr}

theorem stopsWith_of_exec {st : Status} (hexec : exec i s = .next (s.stop st)) :
    ∃ t, exec i s = .next t ∧ s.StopsWith t st :=
  ⟨_, hexec, stop_stopsWith s st⟩

theorem load_stopsWith {f : BitVec n.bits → Word} {st : Status} (hexec : exec i s = .next (s.load n f rd rs1 imm))
    (hcheck : s.accessCheck .loadAddressMisaligned .loadAccessFault (s.ea rs1 imm) n = some st) :
    ∃ t, exec i s = .next t ∧ s.StopsWith t st :=
  stopsWith_of_exec (by rw [hexec, load_stops f rd hcheck])

theorem store_stopsWith {v : BitVec n.bits} {st : Status} (hexec : exec i s = .next (s.store n v rs1 imm))
    (hcheck : s.accessCheck .storeAddressMisaligned .storeAccessFault (s.ea rs1 imm) n = some st) :
    ∃ t, exec i s = .next t ∧ s.StopsWith t st :=
  stopsWith_of_exec (by rw [hexec, store_stops v hcheck])

theorem load_completesWith {f : BitVec n.bits → Word} {P : Word → Prop}
    (hexec : exec i s = .next (s.load n f rd rs1 imm)) (halign : Aligned (s.ea rs1 imm) n.bytes)
    (hdata : s.InData (s.ea rs1 imm) n.bytes) (hv : P (f (s.readLE (s.ea rs1 imm).toNat n))) :
    ∃ t v, exec i s = .next t ∧ s.WritesReg t rd v ∧ t.pc = s.pc + 4#32 ∧ P v :=
  completes_of_result (by rw [hexec, load_completes f rd halign hdata]) hv

theorem store_completesWith {rs2 : RegIdx}
    (hexec : exec i s = .next (s.store n ((s.readReg rs2).extractLsb' 0 n.bits) rs1 imm))
    (halign : Aligned (s.ea rs1 imm) n.bytes) (hdata : s.InData (s.ea rs1 imm) n.bytes) :
    ∃ t, exec i s = .next t ∧ s.WritesBytes t (s.ea rs1 imm).toNat n.bytes (s.readReg rs2) ∧ t.pc = s.pc + 4#32 :=
  ⟨_, by rw [hexec, store_completes _ halign hdata], putBytes_writesBytes s _ n _, rfl⟩

end

theorem aligned_one (a : Word) : Aligned a 1 := Nat.mod_one _

section
variable (s : State) (rd rs1 rs2 : RegIdx) (imm : Word)

theorem exec_lb : exec (.lb rd rs1 imm) s = .next (s.load .byte (BitVec.signExtend 32) rd rs1 imm) := rfl

theorem exec_lbu : exec (.lbu rd rs1 imm) s = .next (s.load .byte (BitVec.setWidth 32) rd rs1 imm) := rfl

theorem exec_lh : exec (.lh rd rs1 imm) s = .next (s.load .half (BitVec.signExtend 32) rd rs1 imm) := rfl

theorem exec_lhu : exec (.lhu rd rs1 imm) s = .next (s.load .half (BitVec.setWidth 32) rd rs1 imm) := rfl

theorem exec_lw : exec (.lw rd rs1 imm) s = .next (s.load .word (fun v => v) rd rs1 imm) := rfl

theorem exec_sb : exec (.sb rs1 rs2 imm) s =
    .next (s.store .byte ((s.readReg rs2).extractLsb' 0 Width.byte.bits) rs1 imm) := rfl

theorem exec_sh : exec (.sh rs1 rs2 imm) s =
    .next (s.store .half ((s.readReg rs2).extractLsb' 0 Width.half.bits) rs1 imm) := rfl

theorem exec_sw : exec (.sw rs1 rs2 imm) s =
    .next (s.store .word ((s.readReg rs2).extractLsb' 0 Width.word.bits) rs1 imm) := by
  rw [BitVec.extractLsb'_eq_self]; rfl

end

end Sys2Proof.Machine

namespace Sys2Proof

open Machine

/-! ## Accesses that complete -/

/-- Settles O33: the byte read, extended either way, holds the byte and its extension. -/
theorem byteLoadsComplete : Obligations.ByteLoadsComplete := by
  refine fun s rd rs1 imm hdata => ⟨?lb, ?lbu⟩
  case lb =>
    exact load_completesWith (exec_lb ..) (aligned_one _) hdata
      ⟨signExtend_holdsBytes s _ .byte, signExtend_upperBits _ (by decide) (by decide)⟩
  case lbu =>
    exact load_completesWith (exec_lbu ..) (aligned_one _) hdata
      ⟨setWidth_holdsBytes s _ .byte, setWidth_upperBits _⟩

/-- Settles O34: as for a byte, with two of them. -/
theorem halfwordLoadsComplete : Obligations.HalfwordLoadsComplete := by
  refine fun s rd rs1 imm halign hdata => ⟨?lh, ?lhu⟩
  case lh =>
    exact load_completesWith (exec_lh ..) halign hdata
      ⟨signExtend_holdsBytes s _ .half, signExtend_upperBits _ (by decide) (by decide)⟩
  case lhu =>
    exact load_completesWith (exec_lhu ..) halign hdata
      ⟨setWidth_holdsBytes s _ .half, setWidth_upperBits _⟩

/-- Settles O35: the word read is the four bytes. -/
theorem wordLoadsComplete : Obligations.WordLoadsComplete :=
  fun s _ _ _ halign hdata => load_completesWith (exec_lw ..) halign hdata (word_holdsBytes s _)

/-- Settles O36: a byte is always aligned, and the one byte of the access changes. -/
theorem byteStoresComplete : Obligations.ByteStoresComplete :=
  fun _ _ _ _ hdata => store_completesWith (exec_sb ..) (aligned_one _) hdata

/-- Settles O37: the two bytes of the access change. -/
theorem halfwordStoresComplete : Obligations.HalfwordStoresComplete :=
  fun _ _ _ _ halign hdata => store_completesWith (exec_sh ..) halign hdata

/-- Settles O38: the four bytes of the access change. -/
theorem wordStoresComplete : Obligations.WordStoresComplete :=
  fun _ _ _ _ halign hdata => store_completesWith (exec_sw ..) halign hdata

/-! ## Accesses that stop -/

/-- Settles O39: the alignment check is the first, so no region matters. -/
theorem misalignedAccessesFault : Obligations.MisalignedAccessesFault := by
  refine fun s r rs1 imm => ⟨fun half => ⟨?lh, ?lhu, ?sh⟩, fun word => ⟨?lw, ?sw⟩⟩
  case lh => exact load_stopsWith (exec_lh ..) (accessCheck_of_misaligned half)
  case lhu => exact load_stopsWith (exec_lhu ..) (accessCheck_of_misaligned half)
  case sh => exact store_stopsWith (exec_sh ..) (accessCheck_of_misaligned half)
  case lw => exact load_stopsWith (exec_lw ..) (accessCheck_of_misaligned word)
  case sw => exact store_stopsWith (exec_sw ..) (accessCheck_of_misaligned word)

/-- Settles O40: the image check comes before the one of DATA_REGION. -/
theorem accessesToTheImageRefused : Obligations.AccessesToTheImageRefused := by
  refine fun s r rs1 imm => ⟨fun image => ⟨?lb, ?lbu, ?sb⟩, fun half image => ⟨?lh, ?lhu, ?sh⟩,
    fun word image => ⟨?lw, ?sw⟩⟩
  case lb => exact load_stopsWith (exec_lb ..) (accessCheck_of_image (aligned_one _) image)
  case lbu => exact load_stopsWith (exec_lbu ..) (accessCheck_of_image (aligned_one _) image)
  case sb => exact store_stopsWith (exec_sb ..) (accessCheck_of_image (aligned_one _) image)
  case lh => exact load_stopsWith (exec_lh ..) (accessCheck_of_image half image)
  case lhu => exact load_stopsWith (exec_lhu ..) (accessCheck_of_image half image)
  case sh => exact store_stopsWith (exec_sh ..) (accessCheck_of_image half image)
  case lw => exact load_stopsWith (exec_lw ..) (accessCheck_of_image word image)
  case sw => exact store_stopsWith (exec_sw ..) (accessCheck_of_image word image)

/-- Settles O41: the check of DATA_REGION is the last. -/
theorem accessesOutsideDataRegionFault : Obligations.AccessesOutsideDataRegionFault := by
  refine fun s r rs1 imm => ⟨fun image out => ⟨?lb, ?lbu, ?sb⟩, fun half image out => ⟨?lh, ?lhu, ?sh⟩,
    fun word image out => ⟨?lw, ?sw⟩⟩
  case lb => exact load_stopsWith (exec_lb ..) (accessCheck_of_outside (aligned_one _) image out)
  case lbu => exact load_stopsWith (exec_lbu ..) (accessCheck_of_outside (aligned_one _) image out)
  case sb => exact store_stopsWith (exec_sb ..) (accessCheck_of_outside (aligned_one _) image out)
  case lh => exact load_stopsWith (exec_lh ..) (accessCheck_of_outside half image out)
  case lhu => exact load_stopsWith (exec_lhu ..) (accessCheck_of_outside half image out)
  case sh => exact store_stopsWith (exec_sh ..) (accessCheck_of_outside half image out)
  case lw => exact load_stopsWith (exec_lw ..) (accessCheck_of_outside word image out)
  case sw => exact store_stopsWith (exec_sw ..) (accessCheck_of_outside word image out)

end Sys2Proof
end

section
/-! Data memory along an execution: which bytes an instruction can change, what a load after a store reads, and memories
in canonical form as sets of bytes. -/

namespace Sys2Proof.Machine

/-! ## Only stores change memory (R3, R41) -/

@[simp] theorem load_mem (s : State) (n : Width) (f : BitVec n.bits → Word) (rd rs1 : RegIdx) (imm : Word) :
    (s.load n f rd rs1 imm).mem = s.mem := by
  rcases load_cases s n f rd rs1 imm with ⟨st, -, e⟩ | ⟨-, e⟩ <;> rw [e]
  · exact stop_mem s st
  · exact result_mem s rd _

@[simp] theorem branch_mem (s : State) (c : Bool) (imm : Word) : (s.branch c imm).mem = s.mem := by
  rcases branch_cases s c imm with ⟨-, e⟩ | ⟨-, -, e⟩ | ⟨-, -, e⟩ <;> rw [e] <;> rfl

@[simp] theorem link_mem (s : State) (rd : RegIdx) (v t : Word) : (s.transfer (s.writeReg rd v) t).mem = s.mem := by
  rcases transfer_cases s (s.writeReg rd v) t with ⟨-, e⟩ | ⟨-, e⟩ <;> rw [e]
  · exact writeReg_mem s rd v
  · rfl

/-- SB, SH and SW are the stores. -/
def IsStore (i : Instr) : Prop := ∃ a b v, i = .sb a b v ∨ i = .sh a b v ∨ i = .sw a b v

theorem exec_mem_of_not_store {i : Instr} {s t : State} (hi : ¬ IsStore i) (hexec : exec i s = .next t) :
    t.mem = s.mem := by
  cases i with
  | sb a b v => exact absurd ⟨a, b, v, .inl rfl⟩ hi
  | sh a b v => exact absurd ⟨a, b, v, .inr (.inl rfl)⟩ hi
  | sw a b v => exact absurd ⟨a, b, v, .inr (.inr rfl)⟩ hi
  | lb | lh | lw | lbu | lhu => cases hexec; exact load_mem ..
  | beq | bne | blt | bge | bltu | bgeu => cases hexec; exact branch_mem ..
  | jal | jalr => cases hexec; exact link_mem ..
  | _ => cases hexec; exact result_mem ..

theorem readByte_of_mem_eq {s t : State} (h : t.mem = s.mem) (a : Nat) : t.readByte a = s.readByte a := by
  rw [State.readByte, h, State.readByte]

/-- A byte that an instruction changes was in an access that passed its checks. -/
theorem Effect.changed_byte_inData {s t : State} (h : Effect s t) {a : Nat} (ha : t.readByte a ≠ s.readByte a) :
    s.launch.inDataRegion a = true := by
  cases h with
  | store n v base hcheck =>
    rw [advance_readByte, readByte_putBytes, bytesLE_length] at ha
    by_cases hin : base.toNat ≤ a ∧ a < base.toNat + n.bytes
    · obtain ⟨-, hdata⟩ := accessCheck_none_iff.1 hcheck
      have hbyte := hdata (a - base.toNat) (by omega)
      rwa [Nat.add_sub_cancel' hin.1] at hbyte
    · rw [if_neg hin] at ha
      exact absurd rfl ha
  | result rd v => exact absurd (result_readByte s rd v a) ha
  | link rd v t => exact absurd (writeReg_readByte s rd v a) ha
  | _ => exact absurd rfl ha

/-! ## A load after a store (R56, R253) -/

/-- Every bit of a value is bit `j` of some byte `k`. -/
theorem exists_byte_bit {n : Width} {i : Nat} (hi : i < n.bits) : ∃ k j, k < n.bytes ∧ j < 8 ∧ i = 8 * k + j := by
  refine ⟨i / 8, i % 8, ?_, Nat.mod_lt _ (by decide), by omega⟩
  cases n <;> simp only [Width.bits, Width.bytes] at * <;> omega

/-- Reading bytes that are the bytes of `v` from byte `k` on gives those bits of `v`. -/
theorem readLE_of_bytes {s : State} {a k : Nat} {n : Width} {v : Word}
    (hbytes : ∀ m, m < n.bytes → s.readByte (a + m) = v.extractLsb' (8 * (k + m)) 8) :
    s.readLE a n = v.extractLsb' (8 * k) n.bits := by
  apply BitVec.eq_of_getLsbD_eq
  intro i hi
  obtain ⟨m, j, hm, hj, rfl⟩ := exists_byte_bit hi
  rw [readLE_getLsbD s a n hm hj, hbytes m hm, BitVec.getLsbD_extractLsb', BitVec.getLsbD_extractLsb']
  simp only [hi, hj, decide_true, Bool.true_and]
  congr 1
  omega

/-- A load within the word that a state holds at `base`. -/
theorem load_within_word {t : State} {base v : Word} {k : Nat} {n : Width} {r : RegIdx} {off : Word}
    (hbase : Aligned base 4) (hdata : t.InData base 4)
    (hword : ∀ m, m < 4 → t.readByte (base.toNat + m) = v.extractLsb' (8 * m) 8)
    (hk : k + n.bytes ≤ 4) (halign : k % n.bytes = 0) (hea : t.ea r off = base + BitVec.ofNat 32 k)
    (f : BitVec n.bits → Word) (rd : RegIdx) :
    t.load n f rd r off = t.result rd (f (v.extractLsb' (8 * k) n.bits)) := by
  have hend := State.InData.end_le (n := .word) hdata
  have haddr : (t.ea r off).toNat = base.toNat + k := by
    rw [hea, BitVec.toNat_add, BitVec.toNat_ofNat]
    cases n <;> simp only [Width.bytes] at * <;> omega
  rw [load_completes f rd, haddr, readLE_of_bytes fun m hm => ?_]
  · rw [Nat.add_assoc]
    exact hword (k + m) (by omega)
  · unfold Aligned at *
    rw [haddr]
    cases n <;> simp only [Width.bytes] at * <;> omega
  · intro m hm
    rw [haddr, Nat.add_assoc]
    exact hdata (k + m) (by omega)

/-- An instruction that is such a load leaves the status alone and the bits it loaded in `rd`. -/
theorem exec_load_within_word {t u : State} {base v : Word} {k : Nat} {n : Width} {f : BitVec n.bits → Word}
    {rd r : RegIdx} {off : Word} {i : Instr} (hexec : exec i t = .next (t.load n f rd r off))
    (hu : exec i t = .next u) (hbase : Aligned base 4) (hdata : t.InData base 4)
    (hword : ∀ m, m < 4 → t.readByte (base.toNat + m) = v.extractLsb' (8 * m) 8) (hrd : rd ≠ 0#5)
    (hk : k + n.bytes ≤ 4) (halign : k % n.bytes = 0) (hea : t.ea r off = base + BitVec.ofNat 32 k) :
    u.status = t.status ∧ u.readReg rd = f (v.extractLsb' (8 * k) n.bits) := by
  obtain rfl := Host.Outcome.next.inj (hexec.symm.trans hu)
  rw [load_within_word hbase hdata hword hk halign hea, result_status, result_readReg, if_pos ⟨rfl, hrd⟩]
  exact ⟨rfl, rfl⟩

/-- An SW after which the state still runs has stored the word. -/
theorem sw_completed {s t : State} {rs1 rs2 : RegIdx} {imm : Word} (hexec : exec (.sw rs1 rs2 imm) s = .next t)
    (hrun : t.status = .running) :
    Aligned (s.ea rs1 imm) 4 ∧ s.InData (s.ea rs1 imm) 4 ∧
      s.WritesBytes t (s.ea rs1 imm).toNat 4 (s.readReg rs2) := by
  rw [exec_sw] at hexec
  obtain rfl := Host.Outcome.next.inj hexec
  rcases store_cases s .word ((s.readReg rs2).extractLsb' 0 Width.word.bits) rs1 imm with
    ⟨st, hcheck, e⟩ | ⟨hcheck, e⟩ <;> rw [e] at hrun ⊢
  · exact absurd hrun (accessCheck_ne_running hcheck)
  · obtain ⟨halign, hdata⟩ := accessCheck_none_iff.1 hcheck
    exact ⟨halign, hdata, putBytes_writesBytes s _ .word _⟩

/-! ## Memories in canonical form -/

theorem lookup_eq_some_iff {m : Memory} (hm : m.Pairwise (fun c d => c.1 < d.1)) (a : Nat) (v : Byte) :
    Memory.lookup m a = some v ↔ (a, v) ∈ m := by
  induction m with
  | nil => simp [Memory.lookup]
  | cons c m ih =>
    obtain ⟨b, u⟩ := c
    obtain ⟨hhead, htail⟩ := List.pairwise_cons.1 hm
    rw [Memory.lookup, List.mem_cons]
    by_cases hab : a = b
    · subst hab
      have hnot : (a, v) ∉ m := fun h => Nat.lt_irrefl a (hhead _ h)
      simp [hnot, eq_comm]
    · simp [hab, ih htail]

theorem lookup_eq_none {m : Memory} (hm : m.Pairwise (fun c d => c.1 < d.1)) {a : Nat} (ha : ∀ v, (a, v) ∉ m) :
    Memory.lookup m a = none :=
  Option.eq_none_iff_forall_not_mem.2 fun v hv => ha v ((lookup_eq_some_iff hm a v).1 hv)

end Sys2Proof.Machine

namespace Sys2Proof

open Machine

/-! ## The obligations -/

/-- Settles O48: the loaded bytes are within the word that SW left at its address. -/
theorem loadsSeeTheStoredWord : Obligations.LoadsSeeTheStoredWord := by
  intro s t u rs1 rs2 rd r imm off _ hsw hrun hrd
  obtain ⟨halign, hdata, hword, -, -, -, hlaunch⟩ := sw_completed hsw hrun
  have hdata' : t.InData (s.ea rs1 imm) 4 := by unfold State.InData; rwa [hlaunch]
  rw [← hrun]
  refine ⟨fun k hk hea hu => ?lbu, fun k hk hea hu => ?lhu, fun hea hu => ?lw⟩
  case lbu =>
    exact exec_load_within_word (exec_lbu ..) hu halign hdata' hword hrd (show k + 1 ≤ 4 by omega) (Nat.mod_one k) hea
  case lhu =>
    exact exec_load_within_word (exec_lhu ..) hu halign hdata' hword hrd (show k + 2 ≤ 4 by omega)
      (show k % 2 = 0 by omega) hea
  case lw =>
    have hzero : t.ea r off = s.ea rs1 imm + BitVec.ofNat 32 0 := hea.trans (BitVec.add_zero _).symm
    have hloaded :=
      exec_load_within_word (exec_lw ..) hu halign hdata' hword hrd (show 0 + 4 ≤ 4 by omega) (Nat.zero_mod 4) hzero
    rwa [BitVec.extractLsb'_eq_self] at hloaded

/-- Settles O49: memory changes only in a store, and there only in bytes that passed the access checks. -/
theorem onlyStoresChangeMemory : Obligations.OnlyStoresChangeMemory := by
  intro i s t hexec
  refine ⟨fun hi => ?_, fun a ha => ?_⟩
  · have hmem : t.mem = s.mem := exec_mem_of_not_store
      (fun ⟨a, b, v, h⟩ => by obtain ⟨hsb, hsh, hsw⟩ := hi a b v; tauto) hexec
    exact ⟨hmem, readByte_of_mem_eq hmem⟩
  · obtain ⟨t', hexec', heffect⟩ := exec_effect i s
    obtain rfl := Host.Outcome.next.inj (hexec'.symm.trans hexec)
    have hdata := heffect.changed_byte_inData ha
    exact ⟨hdata, inData_not_inImage _ _ hdata⟩

/-- Settles O50: the look-ups are the members, and a strictly rising list is determined by its members. -/
theorem equalContentsEqualMemory : Obligations.EqualContentsEqualMemory := by
  rintro m n ⟨hm, -⟩ ⟨hn, -⟩ hlookup
  have hirrefl : Std.Irrefl (fun c d : Host.Cell => c.1 < d.1) := ⟨fun c => Nat.lt_irrefl c.1⟩
  have hantisymm : Std.Antisymm (fun c d : Host.Cell => c.1 < d.1) := ⟨fun _ _ h h' => absurd h (Nat.lt_asymm h')⟩
  refine hm.eq_of_mem_iff hn fun ⟨a, v⟩ => ?_
  rw [← lookup_eq_some_iff hm, ← lookup_eq_some_iff hn, hlookup]

/-- Settles O19: DATA_REGION takes the image out and is below 2^32. -/
theorem dataRegionDisjointFromImage : Obligations.DataRegionDisjointFromImage :=
  fun l a h => ⟨inData_not_inImage l a h, inData_lt l a h⟩

end Sys2Proof
end

section
/-! The step and the run. Each outcome of a step has an equation; what an instruction can do to a state (`Effect`) and
the cases of a step then give the invariant, the precision of stops and the safety of completed runs. -/

namespace Sys2Proof.Machine

/-! ## One equation per outcome of a step (R30, R33, R246) -/

section
variable {s : State} (hrun : s.status = .running)
include hrun

theorem step_of_end (hend : s.pc = s.launch.endPc) : step s = .next (s.stop .halted) := by
  unfold step
  rw [hrun]
  exact if_pos hend

variable (hpc : s.pc ≠ s.launch.endPc)
include hpc

theorem step_of_fetchDecode_ok {i : Instr} (h : s.fetchDecode = .ok i) : step s = exec i s := by
  unfold step
  rw [hrun]
  simp only [if_neg hpc, h]

theorem step_of_fetchDecode_error {st : Status} (h : s.fetchDecode = .error st) : step s = .next (s.stop st) := by
  unfold step
  rw [hrun]
  simp only [if_neg hpc, h]

theorem step_of_decode {w : Word} {i : Instr} (hfetch : s.launch.fetch s.pc = some w) (hdecode : decode w = .ok i) :
    step s = exec i s :=
  step_of_fetchDecode_ok hrun hpc (by rw [State.fetchDecode, hfetch]; simp only [hdecode])

theorem step_of_reject {w : Word} {e : DecodeError} (hfetch : s.launch.fetch s.pc = some w)
    (hdecode : decode w = .error e) : step s = .next (s.stop (.faulted .illegalInstruction w)) :=
  step_of_fetchDecode_error hrun hpc (by rw [State.fetchDecode, hfetch]; simp only [hdecode])

theorem step_of_no_fetch (hfetch : s.launch.fetch s.pc = none) :
    step s = .next (s.stop (.faulted .instructionAccessFault s.pc)) :=
  step_of_fetchDecode_error hrun hpc (by rw [State.fetchDecode, hfetch])

end

theorem step_of_halted {s : State} (h : s.status = .halted) : step s = .fault .noStepHalted := by
  unfold step
  rw [h]

theorem step_of_faulted {s : State} {c : Cause} {w : Word} (h : s.status = .faulted c w) :
    step s = .fault (.noStepFaulted c w) := by
  unfold step
  rw [h]

theorem step_of_refused {s : State} {r : RefuseReason} (h : s.status = .refused r) :
    step s = .fault (.noStepRefused r) := by
  unfold step
  rw [h]

/-- A running state has a step, whatever its pc and the image are. -/
theorem exists_step_of_running {s : State} (hrun : s.status = .running) : ∃ t, step s = .next t := by
  by_cases hpc : s.pc = s.launch.endPc
  · exact ⟨_, step_of_end hrun hpc⟩
  · cases hfd : s.fetchDecode with
    | error st => exact ⟨_, step_of_fetchDecode_error hrun hpc hfd⟩
    | ok i =>
      obtain ⟨t, hexec, -⟩ := exec_effect i s
      exact ⟨t, (step_of_fetchDecode_ok hrun hpc hfd).trans hexec⟩

theorem exists_step_iff {s : State} : s.status = .running ↔ ∃ t, step s = .next t :=
  ⟨exists_step_of_running, fun ⟨t, h⟩ => (step_cases s t h).1⟩

/-! ## Fetch (R42) -/

theorem fetch_eq_some_iff {l : Launch} {a w : Word} :
    l.fetch a = some w ↔ ∃ k, l.program[k]? = some w ∧ a.toNat = l.progBase.toNat + 4 * k := by
  unfold Launch.fetch
  constructor
  · intro h
    split at h
    · rename_i hword
      exact ⟨_, h, by omega⟩
    · cases h
  · rintro ⟨k, hk, ha⟩
    rw [if_pos (by omega), show (a.toNat - l.progBase.toNat) / 4 = k by omega, hk]

theorem fetch_eq_none {l : Launch} {a : Word}
    (h : ∀ k, k < l.program.length → a.toNat ≠ l.progBase.toNat + 4 * k) : l.fetch a = none := by
  refine Option.eq_none_iff_forall_not_mem.2 fun w hw => ?_
  obtain ⟨k, hk, ha⟩ := fetch_eq_some_iff.1 hw
  exact h k (List.getElem?_eq_some_iff.1 hk).1 ha

/-! ## What an instruction and a step keep -/

theorem Effect.launch_eq {s t : State} (h : Effect s t) : t.launch = s.launch := by
  cases h with
  | result rd v => exact result_launch s rd v
  | link rd v t => exact writeReg_launch s rd v
  | _ => rfl

/-- An instruction ends the run, for a cause of its own, or leaves the status as it is. -/
theorem Effect.stop_or_status_eq {s t : State} (h : Effect s t) :
    (∃ st, t = s.stop st ∧ st ≠ .halted) ∨ t.status = s.status := by
  cases h with
  | stop st h => exact .inl ⟨st, rfl, h.1⟩
  | result rd v => exact .inr (result_status s rd v)
  | link rd v t => exact .inr (writeReg_status s rd v)
  | _ => exact .inr rfl

theorem effect_of_exec {s t : State} {i : Instr} (hexec : exec i s = .next t) : Effect s t := by
  obtain ⟨t', hexec', heffect⟩ := exec_effect i s
  obtain rfl := Host.Outcome.next.inj (hexec'.symm.trans hexec)
  exact heffect

theorem step_launch_eq {s t : State} (h : step s = .next t) : t.launch = s.launch := by
  obtain ⟨-, ⟨-, rfl⟩ | ⟨-, -, rfl⟩ | ⟨-, w, e, -, -, rfl⟩ | ⟨-, w, i, -, -, hexec⟩⟩ := step_cases s t h
  · rfl
  · rfl
  · rfl
  · exact (effect_of_exec hexec).launch_eq

/-- A step that does not leave the state running ends the run: it changes the status only, and halts at END_PC only. -/
theorem step_stops {s t : State} (h : step s = .next t) (hstop : t.status ≠ .running) :
    ∃ st, t = s.stop st ∧ (st = .halted → s.pc = s.launch.endPc) := by
  obtain ⟨hrun, ⟨hend, rfl⟩ | ⟨-, -, rfl⟩ | ⟨-, w, e, -, -, rfl⟩ | ⟨-, w, i, -, -, hexec⟩⟩ := step_cases s t h
  · exact ⟨_, rfl, fun _ => hend⟩
  · exact ⟨_, rfl, fun h => by cases h⟩
  · exact ⟨_, rfl, fun h => by cases h⟩
  · rcases (effect_of_exec hexec).stop_or_status_eq with ⟨st, rfl, hst⟩ | hsame
    · exact ⟨st, rfl, fun h => absurd h hst⟩
    · exact absurd (hsame.trans hrun) hstop

/-! ## The invariant -/

/-- Of a running state the invariant asks nothing about how a run ends. -/
theorem State.Inv.of_running {t : State} (hlaunch : t.launch.wf = true) (hpc : t.pc.toNat % 4 = 0)
    (hmem : Memory.wf t.mem) (hregion : ∀ c ∈ t.mem, t.launch.inDataRegion c.1 = true)
    (hrun : t.status = .running) : t.Inv where
  launchWf := hlaunch
  pcAligned := hpc
  memWf := hmem
  memInRegion := hregion
  haltedAtEnd h := by rw [hrun] at h; cases h
  fetchFault w h := by rw [hrun] at h; cases h
  illegalWord w h := by rw [hrun] at h; cases h

/-- A state that changes neither memory nor launch and goes on at an aligned pc keeps the invariant. -/
theorem State.Inv.of_same_mem {s t : State} (hs : s.Inv) (hlaunch : t.launch = s.launch) (hmem : t.mem = s.mem)
    (hpc : t.pc.toNat % 4 = 0) (hrun : t.status = .running) : t.Inv :=
  .of_running (hlaunch ▸ hs.launchWf) hpc (hmem ▸ hs.memWf)
    (by rw [hlaunch, hmem]; exact hs.memInRegion) hrun

/-- Ending a run keeps the invariant where the new status says of the pc what it should. -/
theorem State.Inv.stop {s : State} (hs : s.Inv) {st : Status} (hhalted : st = .halted → s.pc = s.launch.endPc)
    (hfetch : ∀ w, st = .faulted .instructionAccessFault w → w = s.pc ∧ s.launch.fetch s.pc = none)
    (hillegal : ∀ w, st = .faulted .illegalInstruction w → s.launch.fetch s.pc = some w) : (s.stop st).Inv :=
  ⟨hs.launchWf, hs.pcAligned, hs.memWf, hs.memInRegion, hhalted, hfetch, hillegal⟩

theorem nextPc_aligned {pc : Word} (h : pc.toNat % 4 = 0) : (pc + 4#32).toNat % 4 = 0 := by
  rw [BitVec.toNat_add]
  simp only [BitVec.toNat_ofNat]
  omega

/-- A store that passes its checks leaves memory in canonical form and within DATA_REGION. -/
theorem State.Inv.putBytes {s : State} (hs : s.Inv) {mis absent : Cause} {a : Word} {n : Width} (v : BitVec n.bits)
    (hcheck : s.accessCheck mis absent a n = none) :
    Memory.wf (Memory.putBytes s.mem a.toNat (bytesLE n v)) ∧
      ∀ c ∈ Memory.putBytes s.mem a.toNat (bytesLE n v), s.launch.inDataRegion c.1 = true := by
  obtain ⟨-, hdata⟩ := accessCheck_none_iff.1 hcheck
  refine ⟨putBytes_wf _ _ _ (by rw [bytesLE_length]; exact State.InData.end_le hdata) hs.memWf, fun c hc => ?_⟩
  rcases mem_putBytes _ _ _ _ hc with ⟨hlow, hhigh⟩ | hold
  · rw [bytesLE_length] at hhigh
    have hbyte := hdata (c.1 - a.toNat) (by omega)
    rwa [Nat.add_sub_cancel' hlow] at hbyte
  · exact hs.memInRegion c hold

theorem Effect.keeps_inv {s t : State} (h : Effect s t) (hs : s.Inv) (hrun : s.status = .running) : t.Inv := by
  have hnext := nextPc_aligned hs.pcAligned
  cases h with
  | stop st hst hcause =>
    exact hs.stop (fun h => absurd h hst.1) (fun w h => absurd h (hcause w).1) (fun w h => absurd h (hcause w).2)
  | result rd v =>
    exact hs.of_same_mem (result_launch s rd v) (result_mem s rd v) (by rwa [result_pc])
      ((result_status s rd v).trans hrun)
  | jump t ht => exact hs.of_same_mem rfl rfl ht hrun
  | link rd v t ht =>
    exact hs.of_same_mem (writeReg_launch s rd v) (writeReg_mem s rd v) ht ((writeReg_status s rd v).trans hrun)
  | skip => exact hs.of_same_mem rfl rfl hnext hrun
  | store n v a hcheck =>
    obtain ⟨hwf, hregion⟩ := hs.putBytes v hcheck
    exact .of_running hs.launchWf hnext hwf hregion hrun

theorem step_keeps_inv {s t : State} (hs : s.Inv) (h : step s = .next t) : t.Inv := by
  obtain ⟨hrun, ⟨hend, rfl⟩ | ⟨-, hfetch, rfl⟩ | ⟨-, w, e, hfetch, -, rfl⟩ | ⟨-, w, i, -, -, hexec⟩⟩ := step_cases s t h
  · exact hs.stop (fun _ => hend) (fun w h => by cases h) (fun w h => by cases h)
  · exact hs.stop (fun h => by cases h) (fun w h => by cases h; exact ⟨rfl, hfetch⟩) (fun w h => by cases h)
  · exact hs.stop (fun h => by cases h) (fun w h => by cases h) (fun w h => by cases h; exact hfetch)
  · exact (effect_of_exec hexec).keeps_inv hs hrun

theorem run_keeps_inv {k : Nat} {s t : State} (hs : s.Inv) (h : s.run k = .next t) : t.Inv ∧ t.launch = s.launch := by
  induction k generalizing s with
  | zero =>
    obtain rfl := Host.Outcome.next.inj h
    exact ⟨hs, rfl⟩
  | succ k ih =>
    obtain ⟨u, hstep, hrest⟩ := run_succ k s t h
    obtain ⟨hinv, hlaunch⟩ := ih (step_keeps_inv hs hstep) hrest
    exact ⟨hinv, hlaunch.trans (step_launch_eq hstep)⟩

/-! ## Completed runs (R246, R248) -/

/-- A state without a step is the only state of its run. -/
theorem run_of_not_running {k : Nat} {s t : State} (hs : s.status ≠ .running) (h : s.run k = .next t) :
    k = 0 ∧ t = s := by
  cases k with
  | zero => exact ⟨rfl, (Host.Outcome.next.inj h).symm⟩
  | succ k =>
    obtain ⟨u, hstep, -⟩ := run_succ k s t h
    exact absurd (step_cases s u hstep).1 hs

theorem accepted_of_running {s : State} (h : s.status = .running) : s.accepted = true := by
  unfold State.accepted
  rw [h]

theorem accepted_of_halted {s : State} (h : s.status = .halted) : s.accepted = true := by
  unfold State.accepted
  rw [h]

theorem safeFor_succ {k : Nat} {s t : State} (hs : s.accepted = true) (hstep : step s = .next t) (ht : t.safeFor k) :
    s.safeFor (k + 1) :=
  ⟨hs, fun t' ht' => by obtain rfl := Host.Outcome.next.inj (hstep.symm.trans ht'); exact ht⟩

theorem completed_run_safe {k : Nat} {s t : State} (hs : s.status = .running) (h : s.completesIn k t) :
    s.safeFor k ∧ t.pc = t.launch.endPc ∧ t.launch = s.launch := by
  obtain ⟨hrun, hhalted⟩ := h
  induction k generalizing s with
  | zero =>
    obtain rfl := Host.Outcome.next.inj hrun
    rw [hs] at hhalted
    cases hhalted
  | succ k ih =>
    obtain ⟨u, hstep, hrest⟩ := run_succ k s t hrun
    by_cases hu : u.status = .running
    · obtain ⟨hsafe, hend, hlaunch⟩ := ih hu hrest
      exact ⟨safeFor_succ (accepted_of_running hs) hstep hsafe, hend, hlaunch.trans (step_launch_eq hstep)⟩
    · obtain ⟨rfl, rfl⟩ := run_of_not_running hu hrest
      obtain ⟨st, rfl, hend⟩ := step_stops hstep hu
      exact ⟨safeFor_succ (accepted_of_running hs) hstep (accepted_of_halted hhalted), hend hhalted, rfl⟩

/-! ## The initial states (R240) -/

/-- Register `k + 1` is entry `k` (R20). -/
theorem readReg_succ (s : State) {k : Nat} (hk : k < 31) : s.readReg (BitVec.ofNat 5 (k + 1)) = s.x[k] := by
  have hval : (BitVec.ofNat 5 (k + 1)).toNat = k + 1 := by
    rw [BitVec.toNat_ofNat, Nat.mod_eq_of_lt (by omega)]
  have hne : BitVec.ofNat 5 (k + 1) ≠ 0#5 := fun h => by
    rw [h] at hval
    cases hval
  simp only [State.readReg, hne, dite_false, hval, Nat.add_sub_cancel]

@[simp] theorem readReg_zero (s : State) : s.readReg 0#5 = 0#32 := rfl

theorem reset_readReg (r : RegIdx) : State.reset.readReg r = 0#32 := by
  unfold State.readReg
  split
  · rfl
  · exact Vector.getElem_replicate ..

theorem reset_inv : State.reset.Inv :=
  .of_running (by decide) rfl reset_mem_wf (fun c hc => by cases hc) rfl

/-! ## A placed word (log entry 8) -/

theorem wordBytes_join (w : Word) :
    w.extractLsb' 24 8 ++ w.extractLsb' 16 8 ++ w.extractLsb' 8 8 ++ w.extractLsb' 0 8 = w := by
  have glue {start m n : Nat} : w.extractLsb' (start + n) m ++ w.extractLsb' start n = w.extractLsb' start (m + n) :=
    BitVec.extractLsb'_append_extractLsb'_eq_extractLsb' rfl
  rw [glue (start := 16) (n := 8), glue (start := 8) (n := 8), glue (start := 0) (n := 8)]
  exact BitVec.extractLsb'_eq_self

theorem decode_of_decodeTableWord {nbits w : Nat} {i : Instr} (h : decodeTableWord nbits w = some i) :
    decode (BitVec.ofNat 32 (w % 2 ^ nbits)) = .ok i := by
  simp only [decodeTableWord, wordBytes, decodeBytes, wordBytes_join] at h
  cases hd : decode (BitVec.ofNat 32 (w % 2 ^ nbits)) with
  | error e => simp only [hd, reduceCtorEq] at h
  | ok j =>
    simp only [hd, Option.some.injEq] at h
    rw [h]

theorem withFetchWord_fetch (s : State) (nbits w : Nat) :
    (s.withFetchWord nbits w).launch.fetch (s.withFetchWord nbits w).pc = some (BitVec.ofNat 32 (w % 2 ^ nbits)) :=
  fetch_eq_some_iff.2 ⟨0, rfl, rfl⟩

theorem withFetchWord_pc_ne_endPc (s : State) (nbits w : Nat) :
    (s.withFetchWord nbits w).pc ≠ (s.withFetchWord nbits w).launch.endPc := by
  show s.pc ≠ s.pc + 4#32
  simp

end Sys2Proof.Machine

namespace Sys2Proof

open Machine

/-! ## The obligations -/

/-- Settles O15, by the cases of a step and the effects of an instruction. -/
theorem stepKeepsInvariant : Obligations.StepKeepsInvariant :=
  fun _ _ hs hstep => step_keeps_inv hs hstep

/-- Settles O16, by induction on the number of steps. -/
theorem runsKeepInvariant : Obligations.RunsKeepInvariant := by
  intro k s t hs hrun
  obtain ⟨hinv, hlaunch⟩ := run_keeps_inv hs hrun
  exact ⟨hinv, hlaunch, fun hhalted => hlaunch ▸ hinv.haltedAtEnd hhalted⟩

/-- Settles O7: in a memory in canonical form a look-up finds exactly the listed bytes. -/
theorem bootStateAsLaunched : Obligations.BootStateAsLaunched := by
  rintro l resetPc regs m ⟨hm, -⟩
  refine ⟨rfl, rfl, rfl, readReg_zero _, fun k hk => readReg_succ _ hk, fun a v hv => ?_, fun a ha => ?_⟩
  · have hlookup : Memory.lookup (State.boot l resetPc regs m).mem a = some v := (lookup_eq_some_iff hm a v).2 hv
    rw [State.readByte, hlookup, Option.getD_some]
  · have hlookup : Memory.lookup (State.boot l resetPc regs m).mem a = none := lookup_eq_none hm ha
    rw [State.readByte, hlookup, Option.getD_none]

/-- Settles O8: registers, status, pc and launch by evaluation, the invariant because the state runs. -/
theorem resetStateMeetsInvariant : Obligations.ResetStateMeetsInvariant :=
  ⟨reset_readReg, rfl, rfl, rfl, rfl, rfl, reset_inv⟩

/-- Settles O12: fetch answers the words of the image at their addresses, and a step without a word faults. -/
theorem fetchReadsTheImageOnly : Obligations.FetchReadsTheImageOnly :=
  fun s => ⟨fun k _ hword hpc => fetch_eq_some_iff.2 ⟨k, hword, hpc⟩,
    fun hrun hend hnone => ⟨_, step_of_no_fetch hrun hend (fetch_eq_none hnone), stop_stopsWith s _⟩⟩

/-- Settles O13: no effect of an instruction and no way to stop touches the launch, which is all that fetch reads. -/
theorem noStepChangesTheProgram : Obligations.NoStepChangesTheProgram :=
  fun _ _ hstep => ⟨step_launch_eq hstep, fun a => by rw [step_launch_eq hstep]⟩

/-- Settles O14: a step that leaves the state other than running is a stop. -/
theorem stopsArePrecise : Obligations.StopsArePrecise := by
  intro s t hstep hstop
  obtain ⟨st, rfl, -⟩ := step_stops hstep hstop
  exact stop_stopsWith s st

/-- Settles O17, by induction on the number of steps: only the last of them leaves the status Running. -/
theorem completedRunsAreSafe : Obligations.CompletedRunsAreSafe :=
  fun _ _ _ hs h => completed_run_safe hs h

/-- Settles O18: the placed word stands at the pc, is not at END_PC, and is what the table word decodes from. -/
theorem placedWordRunsNext : Obligations.PlacedWordRunsNext :=
  fun s nbits w _ hdecode => ⟨step_of_decode rfl (withFetchWord_pc_ne_endPc s nbits w) (withFetchWord_fetch s nbits w)
    (decode_of_decodeTableWord hdecode), fun _ => rfl, rfl, rfl⟩

/-- Settles O9: a running state halts, stops or executes, and each other status has its own fault. -/
theorem exactlyRunningStatesStep : Obligations.ExactlyRunningStatesStep :=
  fun _ => ⟨exists_step_iff, step_of_halted, fun _ _ => step_of_faulted, fun _ => step_of_refused⟩

/-- Settles O10, by the equation of a step that decodes. -/
theorem stepRunsTheDecodedInstruction : Obligations.StepRunsTheDecodedInstruction :=
  fun _ _ _ hrun hpc hfetch hdecode => step_of_decode hrun hpc hfetch hdecode

/-- Settles O11, by the equation of a step at END_PC. -/
theorem reachingEndPcHalts : Obligations.ReachingEndPcHalts :=
  fun s hrun hend => ⟨_, step_of_end hrun hend, stop_stopsWith s .halted⟩

end Sys2Proof
end

section
/-! The rejected words (spec/30_encoding.md R92, R93). A row fixes the opcode of its words and at most funct3 and funct7
beside it, so the decoder rejects a word by these three fields; the classes of R93 are then read off the rows under each
opcode. -/

namespace Sys2Proof

open Machine

theorem rejects_iff (w : Word) : (∃ e, decode w = .error e) ↔ ∀ r ∈ opRows, w &&& r.mask ≠ r.bits := by
  refine ⟨fun ⟨e, he⟩ => (decode_error_cases w e he).2, fun h => ?_⟩
  cases hd : decode w with
  | error e => exact ⟨e, rfl⟩
  | ok i =>
    obtain ⟨r, hr, hw, -⟩ := decode_ok_cases w i hd
    exact absurd hw (h r hr)

/-! ## A match, field by field, where the row is given by its bits -/

section
variable {w b : Word}

theorem matchesR_bits_iff (hb : b &&& 0xFE00707F#32 = b) : w &&& 0xFE00707F#32 = b ↔
    w.extractLsb' 25 7 = b.extractLsb' 25 7 ∧ w.extractLsb' 12 3 = b.extractLsb' 12 3 ∧
      w.extractLsb' 0 7 = b.extractLsb' 0 7 := by
  rw [← matchesR_iff, ← matchesR_iff.2 ⟨rfl, rfl, rfl⟩, hb]

theorem matchesI_bits_iff (hb : b &&& 0x0000707F#32 = b) : w &&& 0x0000707F#32 = b ↔
    w.extractLsb' 12 3 = b.extractLsb' 12 3 ∧ w.extractLsb' 0 7 = b.extractLsb' 0 7 := by
  rw [← matchesI_iff, ← matchesI_iff.2 ⟨rfl, rfl⟩, hb]

theorem matchesU_bits_iff (hb : b &&& 0x0000007F#32 = b) : w &&& 0x0000007F#32 = b ↔
    w.extractLsb' 0 7 = b.extractLsb' 0 7 := by
  rw [← matchesU_iff, ← matchesU_iff.2 rfl, hb]

end

/-! ## The classes of R93 -/

/-- The opcodes of the table. -/
abbrev listedOpcodes : List (BitVec 7) := [0x03#7, 0x13#7, 0x17#7, 0x23#7, 0x33#7, 0x37#7, 0x63#7, 0x67#7, 0x6F#7]

/-- The classes of words that R93 lists, on the three fixed fields. -/
abbrev UnlistedFields (op : BitVec 7) (f3 : BitVec 3) (f7 : BitVec 7) : Prop :=
  op ∉ listedOpcodes ∨
    (op = 0b0110011#7 ∧ f7 ≠ 0b0000000#7 ∧ f7 ≠ 0b0100000#7) ∨
    (op = 0b0110011#7 ∧ f7 = 0b0100000#7 ∧ f3 ≠ 0b000#3 ∧ f3 ≠ 0b101#3) ∨
    (op = 0b0010011#7 ∧ f3 = 0b001#3 ∧ f7 ≠ 0b0000000#7) ∨
    (op = 0b0010011#7 ∧ f3 = 0b101#3 ∧ f7 ≠ 0b0000000#7 ∧ f7 ≠ 0b0100000#7) ∨
    (op = 0b0000011#7 ∧ f3 ∈ [0b011#3, 0b110#3, 0b111#3]) ∨
    (op = 0b1100111#7 ∧ f3 ≠ 0b000#3) ∨
    (op = 0b0100011#7 ∧ f3 ∈ [0b011#3, 0b100#3, 0b101#3, 0b110#3, 0b111#3]) ∨
    (op = 0b1100011#7 ∧ f3 ∈ [0b010#3, 0b011#3])

theorem funct3_cases : ∀ f3 : BitVec 3,
    f3 = 0#3 ∨ f3 = 1#3 ∨ f3 = 2#3 ∨ f3 = 3#3 ∨ f3 = 4#3 ∨ f3 = 5#3 ∨ f3 = 6#3 ∨ f3 = 7#3 := by
  decide

theorem funct7_ne_zero_iff (f7 : BitVec 7) : ¬ f7 = 0#7 ∧ ¬ f7 = 32#7 ∨ f7 = 32#7 ↔ ¬ f7 = 0#7 := by
  by_cases hsub : f7 = 32#7 <;> simp [hsub]

/-- Under each opcode of the table the rows leave out exactly the classes of R93. -/
theorem rejects_iff_unlisted (w : Word) :
    (∃ e, decode w = .error e) ↔ UnlistedFields (w.extractLsb' 0 7) (w.extractLsb' 12 3) (w.extractLsb' 25 7) := by
  rw [rejects_iff]
  simp (disch := decide) only [opRows, rowsR, rowsImm, rowsMem, rowsFlow, List.forall_mem_append, List.forall_mem_cons,
    List.not_mem_nil, IsEmpty.forall_iff, implies_true, and_true, ne_eq, matchesR_bits_iff, matchesI_bits_iff,
    matchesU_bits_iff]
  simp only [BitVec.reduceExtractLsb']
  generalize w.extractLsb' 0 7 = op, w.extractLsb' 12 3 = f3, w.extractLsb' 25 7 = f7
  by_cases hop : op ∈ listedOpcodes
  · fin_cases hop <;> rcases funct3_cases f3 with rfl | rfl | rfl | rfl | rfl | rfl | rfl | rfl <;>
      simp [UnlistedFields, funct7_ne_zero_iff]
  · refine iff_of_true ?_ (.inl hop)
    simp only [listedOpcodes, List.mem_cons, not_or] at hop
    simp [hop]

/-- Settles O4: the classes of R93, and the step that fetches such a word. -/
theorem unlistedWordsFault : Obligations.UnlistedWordsFault :=
  fun w => ⟨rejects_iff_unlisted w, fun s hrun hpc hfetch ⟨_, he⟩ =>
    ⟨_, step_of_reject hrun hpc hfetch he, stop_stopsWith s _⟩⟩

/-- Settles O5, by evaluation of the decoder on each word. -/
theorem specWordsDecode : Obligations.SpecWordsDecode := by
  unfold Obligations.SpecWordsDecode
  decide

end Sys2Proof
end

section
/-! Registers and control transfer: what is written where, where the pc goes, and which registers an instruction depends
on. -/

namespace Sys2Proof.Machine

/-! ## The comparisons in the words of R176 to R181 -/

section
variable (a b : Word)

theorem condNe_eq : condNe a b = decide (a ≠ b) := by
  simp [condNe, beq_eq_decide]

theorem condNe_eq_not : condNe a b = !condEq a b := rfl

theorem condGe_eq_not : condGe a b = !condLt a b := by
  simp only [condGe, condLt, ← decide_not, not_lt]

theorem condGeu_eq_not : condGeu a b = !condLtu a b := by
  simp only [condGeu, condLtu, ← decide_not, not_lt]

end

/-! ## Transfer of control (R48) -/

section
variable {s l : State} {t : Word}

theorem transfer_of_aligned (h : Aligned t 4) : s.transfer l t = l.setPc t := by
  rcases transfer_cases s l t with ⟨-, e⟩ | ⟨hne, -⟩
  · exact e
  · exact absurd h hne

theorem transfer_of_misaligned (h : ¬ Aligned t 4) :
    s.transfer l t = s.stop (.faulted .instructionAddressMisaligned t) := by
  rcases transfer_cases s l t with ⟨heq, -⟩ | ⟨-, e⟩
  · exact absurd heq h
  · exact e

end

/-- Clearing the low `n` bits is rounding down to a multiple of `2 ^ n`. -/
theorem toNat_clear_low_bits (x : Word) (n : Nat) :
    (x &&& (BitVec.allOnes 32 <<< n)).toNat = x.toNat / 2 ^ n * 2 ^ n := by
  have hshift : x &&& (BitVec.allOnes 32 <<< n) = (x >>> n) <<< n := by
    apply BitVec.eq_of_getLsbD_eq
    intro i hi
    simp only [BitVec.getLsbD_and, BitVec.getLsbD_shiftLeft, BitVec.getLsbD_allOnes, BitVec.getLsbD_ushiftRight]
    by_cases hlow : i < n
    · simp [hlow]
    · simp [hlow, hi, Nat.add_sub_cancel' (Nat.not_lt.1 hlow), show i - n < 32 by omega]
  have hle : x.toNat / 2 ^ n * 2 ^ n ≤ x.toNat := Nat.div_mul_le_self ..
  rw [hshift, BitVec.toNat_shiftLeft, BitVec.toNat_ushiftRight, Nat.shiftRight_eq_div_pow, Nat.shiftLeft_eq,
    Nat.mod_eq_of_lt (by omega)]

/-- R160: the mask clears bit 0. -/
theorem toNat_clear_bit_zero (x : Word) : (x &&& 0xFFFFFFFE#32).toNat = x.toNat / 2 * 2 :=
  toNat_clear_low_bits x 1

theorem jalrTarget_eq {s : State} {rs1 : RegIdx} {imm w : Word}
    (hw : w.toNat = (s.readReg rs1 + imm).toNat / 2 * 2) : s.jalrTarget rs1 imm = w :=
  BitVec.eq_of_toNat_eq (by rw [hw]; exact toNat_clear_bit_zero _)

/-! ## What `exec` answers -/

section
variable (s : State) (rd rs1 : RegIdx) (imm : Word)

theorem exec_jalr : exec (.jalr rd rs1 imm) s =
    .next (s.transfer (s.writeReg rd (s.pc + 4#32)) (s.jalrTarget rs1 imm)) := rfl

theorem exec_jal : exec (.jal rd imm) s = .next (s.transfer (s.writeReg rd (s.pc + 4#32)) (s.pc + imm)) := rfl

theorem exec_sltiu : exec (.sltiu rd rs1 imm) s = .next (s.result rd (truth (condLtu (s.readReg rs1) imm))) := rfl

theorem exec_lui : exec (.lui rd imm) s = .next (s.result rd imm) := rfl

theorem exec_auipc : exec (.auipc rd imm) s = .next (s.result rd (s.pc + imm)) := rfl

end

/-! ## The branches (R175 to R181) -/

section
variable (s : State) (rs1 rs2 : RegIdx) (imm : Word)

theorem exec_beq : exec (.beq rs1 rs2 imm) s =
    .next (s.branch (decide (s.readReg rs1 = s.readReg rs2)) imm) := rfl

theorem exec_bne : exec (.bne rs1 rs2 imm) s =
    .next (s.branch (decide (s.readReg rs1 ≠ s.readReg rs2)) imm) := by
  rw [← condNe_eq]; rfl

theorem exec_blt : exec (.blt rs1 rs2 imm) s =
    .next (s.branch (decide ((s.readReg rs1).toInt < (s.readReg rs2).toInt)) imm) := rfl

theorem exec_bge : exec (.bge rs1 rs2 imm) s =
    .next (s.branch (decide ((s.readReg rs2).toInt ≤ (s.readReg rs1).toInt)) imm) := rfl

theorem exec_bltu : exec (.bltu rs1 rs2 imm) s =
    .next (s.branch (decide ((s.readReg rs1).toNat < (s.readReg rs2).toNat)) imm) := rfl

theorem exec_bgeu : exec (.bgeu rs1 rs2 imm) s =
    .next (s.branch (decide ((s.readReg rs2).toNat ≤ (s.readReg rs1).toNat)) imm) := rfl

end

section
variable {s : State} {i : Instr} {c : Bool} {imm : Word} (hexec : exec i s = .next (s.branch c imm))
include hexec

theorem branch_taken (hc : c = true) (halign : Aligned (s.pc + imm) 4) :
    ∃ t, exec i s = .next t ∧ s.WritesNothing t ∧ t.pc = s.pc + imm := by
  subst hc
  exact ⟨_, hexec.trans (congrArg _ (transfer_of_aligned halign)), setPc_writesNothing s _, rfl⟩

theorem branch_not_taken (hc : c = false) :
    ∃ t, exec i s = .next t ∧ s.WritesNothing t ∧ t.pc = s.pc + 4#32 := by
  subst hc
  exact ⟨_, hexec, advance_writesNothing s, rfl⟩

theorem branch_misaligned (hc : c = true) (halign : ¬ Aligned (s.pc + imm) 4) :
    ∃ t, exec i s = .next t ∧ s.StopsWith t (.faulted .instructionAddressMisaligned (s.pc + imm)) := by
  subst hc
  exact stopsWith_of_exec (hexec.trans (congrArg _ (transfer_of_misaligned halign)))

end

/-! ## The pc after an instruction that goes on (R27) -/

section
variable {s : State}

theorem load_pc_of_running {n : Width} {f : BitVec n.bits → Word} {rd rs1 : RegIdx} {imm : Word}
    (h : (s.load n f rd rs1 imm).status = .running) : (s.load n f rd rs1 imm).pc = s.pc + 4#32 := by
  rcases load_cases s n f rd rs1 imm with ⟨st, hcheck, e⟩ | ⟨-, e⟩ <;> rw [e] at h ⊢
  · exact absurd h (accessCheck_ne_running hcheck)
  · exact result_pc s rd _

theorem store_pc_of_running {n : Width} {v : BitVec n.bits} {rs1 : RegIdx} {imm : Word}
    (h : (s.store n v rs1 imm).status = .running) : (s.store n v rs1 imm).pc = s.pc + 4#32 := by
  rcases store_cases s n v rs1 imm with ⟨st, hcheck, e⟩ | ⟨-, e⟩ <;> rw [e] at h ⊢
  · exact absurd h (accessCheck_ne_running hcheck)
  · exact advance_pc _

theorem transfer_pc_of_running {l : State} {t : Word} (h : (s.transfer l t).status = .running) :
    (s.transfer l t).pc = t := by
  rcases transfer_cases s l t with ⟨-, e⟩ | ⟨-, e⟩ <;> rw [e] at h ⊢
  · exact setPc_pc l t
  · cases h

theorem branch_pc_of_running {p : Prop} [Decidable p] {imm : Word} (h : (s.branch (decide p) imm).status = .running) :
    (s.branch (decide p) imm).pc = if p then s.pc + imm else s.pc + 4#32 := by
  by_cases hp : p
  · rw [decide_eq_true hp] at h ⊢
    rw [if_pos hp]
    exact transfer_pc_of_running h
  · rw [decide_eq_false hp, if_neg hp]
    exact advance_pc s

theorem pc_of_running {i : Instr} {t : State} (hexec : exec i s = .next t) (hrun : t.status = .running) :
    t.pc = successorPc i s := by
  cases i with
  | lb | lh | lw | lbu | lhu => cases hexec; exact load_pc_of_running hrun
  | sb | sh | sw => cases hexec; exact store_pc_of_running hrun
  | jal | jalr => cases hexec; exact transfer_pc_of_running hrun
  | beq | blt | bge | bltu | bgeu => cases hexec; exact branch_pc_of_running hrun
  | bne =>
    rw [exec_bne] at hexec
    cases hexec
    exact branch_pc_of_running hrun
  | _ => cases hexec; exact result_pc ..

end

end Sys2Proof.Machine

namespace Sys2Proof

open Machine
open Laws.EncodeCarriesRow (row_mem)

/-- Settles O20: a read after a write, and x0 by evaluation. -/
theorem registerFileLaws : Obligations.RegisterFileLaws := by
  refine fun s v => ⟨rfl, rfl, fun r q hr => ?_⟩
  rw [readReg_writeReg]
  by_cases hq : q = r
  · rw [if_pos ⟨hq, hq ▸ hr⟩, if_pos hq]
  · rw [if_neg (fun h => hq h.1), if_neg hq]

/-- Settles O22, shape by shape: a result, an access, a branch or a jump that does not stop. -/
theorem pcAdvancesToSuccessor : Obligations.PcAdvancesToSuccessor :=
  fun _ _ _ _ hexec hrun => pc_of_running hexec hrun

/-- Settles O28: row 12 of the table, then the truth word of the unsigned comparison. -/
theorem sltiuCompletes : Obligations.SltiuCompletes :=
  ⟨fun _ => decode_of_matches (row_mem 12 _ rfl),
    fun s rd rs1 imm => completes_of_result (exec_sltiu s rd rs1 imm) (truth_condLtu _ _)⟩

/-- Settles O31: row 34 of the table. -/
theorem luiCompletes : Obligations.LuiCompletes :=
  ⟨fun _ => decode_of_matches (row_mem 34 _ rfl),
    fun s rd imm => ⟨_, exec_lui s rd imm, result_writesReg s rd imm, result_pc s rd imm⟩⟩

/-- Settles O32: row 35 of the table. -/
theorem auipcCompletes : Obligations.AuipcCompletes :=
  ⟨fun _ => decode_of_matches (row_mem 35 _ rfl),
    fun s rd imm => completes_of_result (exec_auipc s rd imm) (BitVec.toNat_add _ _)⟩

/-- Settles O42: the target is taken from the state before the link is written. -/
theorem jumpsComplete : Obligations.JumpsComplete := by
  refine fun s rd rs1 imm => ⟨fun w hw halign => ?jalr, fun halign => ?jal⟩
  case jalr => exact ⟨_, by rw [exec_jalr, jalrTarget_eq hw, transfer_of_aligned halign], link_writesReg s rd _ w, rfl⟩
  case jal => exact ⟨_, by rw [exec_jal, transfer_of_aligned halign], link_writesReg s rd _ _, rfl⟩

/-- Settles O43: a transfer to a misaligned target is a stop of the state before the link. -/
theorem misalignedJumpsFault : Obligations.MisalignedJumpsFault := by
  refine fun s rd rs1 imm => ⟨fun w hw halign => ?jalr, fun halign => ?jal⟩
  case jalr => exact stopsWith_of_exec (by rw [exec_jalr, jalrTarget_eq hw, transfer_of_misaligned halign])
  case jal => exact stopsWith_of_exec (by rw [exec_jal, transfer_of_misaligned halign])

/-- Settles O44: each branch is `State.branch` with its condition. -/
theorem branchesComplete : Obligations.BranchesComplete := by
  rintro s i a b c imm rs1 rs2 rfl rfl hbranch
  have hexec : exec i s = .next (s.branch c imm) := by
    rcases hbranch with ⟨rfl, rfl⟩ | ⟨rfl, rfl⟩ | ⟨rfl, rfl⟩ | ⟨rfl, rfl⟩ | ⟨rfl, rfl⟩ | ⟨rfl, rfl⟩
    · exact exec_beq ..
    · exact exec_bne ..
    · exact exec_blt ..
    · exact exec_bge ..
    · exact exec_bltu ..
    · exact exec_bgeu ..
  exact ⟨branch_taken hexec, branch_not_taken hexec⟩

/-- Settles O45: a branch that is taken transfers control, and the transfer stops. -/
theorem misalignedTakenBranchesFault : Obligations.MisalignedTakenBranchesFault := by
  intro s i imm rs1 rs2 halign hbranch
  rcases hbranch with ⟨rfl, h⟩ | ⟨rfl, h⟩ | ⟨rfl, h⟩ | ⟨rfl, h⟩ | ⟨rfl, h⟩ | ⟨rfl, h⟩
  · exact branch_misaligned (exec_beq ..) (decide_eq_true h) halign
  · exact branch_misaligned (exec_bne ..) (decide_eq_true h) halign
  · exact branch_misaligned (exec_blt ..) (decide_eq_true h) halign
  · exact branch_misaligned (exec_bge ..) (decide_eq_true h) halign
  · exact branch_misaligned (exec_bltu ..) (decide_eq_true h) halign
  · exact branch_misaligned (exec_bgeu ..) (decide_eq_true h) halign

/-- Settles O46: the table by evaluation, the negations for all operands. -/
theorem branchConditionTable : Obligations.BranchConditionTable :=
  ⟨by decide, fun a b => ⟨condNe_eq_not a b, condGe_eq_not a b, condGeu_eq_not a b⟩⟩

/-- Settles O47: both words transfer control to `pc + 0`, and a link to x0 writes nothing. -/
theorem selfJumpChangesNothing : Obligations.SelfJumpChangesNothing := by
  intro s hrun hpc halign hfetch
  have hself : s.transfer s (s.pc + 0#32) = s := by
    rw [BitVec.add_zero, transfer_of_aligned halign]
    rfl
  rcases hfetch with hjal | hbeq
  · rw [step_of_decode hrun hpc hjal (i := .jal 0#5 0#32) (by decide)]
    exact congrArg _ hself
  · rw [step_of_decode hrun hpc hbeq (i := .beq 0#5 0#5 0#32) (by decide)]
    exact congrArg _ hself

end Sys2Proof
end

section
/-! Which registers an instruction depends on (R23). Two states that agree on everything but the registers differ in `x`
alone, so each shape of an instruction can be compared on a state and on the same state with other registers. -/

namespace Sys2Proof.Machine

/-- The state with other register contents. -/
abbrev State.withRegs (s : State) (x : Vector Word 31) : State := { s with x := x }

theorem eq_withRegs {s s' : State} (hpc : s'.pc = s.pc) (hmem : s'.mem = s.mem) (hstatus : s'.status = s.status)
    (hlaunch : s'.launch = s.launch) : s' = s.withRegs s'.x := by
  cases s'
  simp only at hpc hmem hstatus hlaunch
  rw [hpc, hmem, hstatus, hlaunch]

/-- From `s` to `t` and from `s'` to `t'` the same was done: the same pc, memory, status and launch, and the same value
in `dest`, every other register being as it was. -/
def SameEffect (dest : Option RegIdx) (s t s' t' : State) : Prop :=
  t'.pc = t.pc ∧ t'.mem = t.mem ∧ t'.status = t.status ∧ t'.launch = t.launch ∧
    ∀ r, (t.readReg r = s.readReg r ∧ t'.readReg r = s'.readReg r) ∨ (dest = some r ∧ t'.readReg r = t.readReg r)

section
variable (s : State) (x : Vector Word 31) {dest : Option RegIdx} {rd rs1 : RegIdx} {imm : Word}

theorem stop_sameEffect (st : Status) : SameEffect dest s (s.stop st) (s.withRegs x) ((s.withRegs x).stop st) :=
  ⟨rfl, rfl, rfl, rfl, fun _ => .inl ⟨rfl, rfl⟩⟩

theorem setPc_sameEffect (t : Word) : SameEffect dest s (s.setPc t) (s.withRegs x) ((s.withRegs x).setPc t) :=
  ⟨rfl, rfl, rfl, rfl, fun _ => .inl ⟨rfl, rfl⟩⟩

theorem link_sameEffect (v t : Word) :
    SameEffect (some rd) s ((s.writeReg rd v).setPc t) (s.withRegs x) (((s.withRegs x).writeReg rd v).setPc t) := by
  refine ⟨rfl, ?_, ?_, ?_, fun r => ?_⟩
  · rw [setPc_mem, setPc_mem, writeReg_mem, writeReg_mem]
  · rw [setPc_status, setPc_status, writeReg_status, writeReg_status]
  · rw [setPc_launch, setPc_launch, writeReg_launch, writeReg_launch]
  · rw [setPc_readReg, setPc_readReg, readReg_writeReg, readReg_writeReg]
    by_cases h : r = rd ∧ r ≠ 0#5
    · rw [if_pos h, if_pos h, h.1]
      exact .inr ⟨rfl, rfl⟩
    · rw [if_neg h, if_neg h]
      exact .inl ⟨rfl, rfl⟩

theorem result_sameEffect {v v' : Word} (hv : v' = v) :
    SameEffect (some rd) s (s.result rd v) (s.withRegs x) ((s.withRegs x).result rd v') := by
  have hnext : ∀ t : State, t.result rd v = (t.writeReg rd v).setPc (t.pc + 4#32) := fun t => by
    rw [State.result, State.advance, State.nextPc, writeReg_pc]
  rw [hv, hnext, hnext]
  exact link_sameEffect s x v _

theorem transfer_sameEffect {t t' : Word} (ht : t' = t) :
    SameEffect dest s (s.transfer s t) (s.withRegs x) ((s.withRegs x).transfer (s.withRegs x) t') := by
  subst ht
  by_cases h : Aligned t' 4
  · rw [transfer_of_aligned h, transfer_of_aligned h]
    exact setPc_sameEffect s x t'
  · rw [transfer_of_misaligned h, transfer_of_misaligned h]
    exact stop_sameEffect s x _

theorem jump_sameEffect {t t' : Word} (ht : t' = t) (v : Word) :
    SameEffect (some rd) s (s.transfer (s.writeReg rd v) t) (s.withRegs x)
      ((s.withRegs x).transfer ((s.withRegs x).writeReg rd v) t') := by
  subst ht
  by_cases h : Aligned t' 4
  · rw [transfer_of_aligned h, transfer_of_aligned h]
    exact link_sameEffect s x v t'
  · rw [transfer_of_misaligned h, transfer_of_misaligned h]
    exact stop_sameEffect s x _

theorem branch_sameEffect {c c' : Bool} (hc : c' = c) :
    SameEffect dest s (s.branch c imm) (s.withRegs x) ((s.withRegs x).branch c' imm) := by
  subst hc
  cases c' with
  | true => exact transfer_sameEffect s x rfl
  | false => exact setPc_sameEffect s x _

variable {n : Width}

theorem load_sameEffect {f : BitVec n.bits → Word} (ha : (s.withRegs x).readReg rs1 = s.readReg rs1) :
    SameEffect (some rd) s (s.load n f rd rs1 imm) (s.withRegs x) ((s.withRegs x).load n f rd rs1 imm) := by
  have hea : (s.withRegs x).ea rs1 imm = s.ea rs1 imm := congrArg (· + imm) ha
  have hcheck : (s.withRegs x).accessCheck .loadAddressMisaligned .loadAccessFault ((s.withRegs x).ea rs1 imm) n =
      s.accessCheck .loadAddressMisaligned .loadAccessFault (s.ea rs1 imm) n := by rw [hea]; rfl
  rcases load_cases s n f rd rs1 imm with ⟨st, h, e⟩ | ⟨h, e⟩ <;> rw [e]
  · rw [load_stops f rd (hcheck.trans h)]
    exact stop_sameEffect s x st
  · obtain ⟨halign, hdata⟩ := accessCheck_none_iff.1 (hcheck.trans h)
    rw [load_completes f rd halign hdata, hea]
    exact result_sameEffect s x rfl

theorem store_sameEffect {v v' : BitVec n.bits} (ha : (s.withRegs x).readReg rs1 = s.readReg rs1) (hv : v' = v) :
    SameEffect dest s (s.store n v rs1 imm) (s.withRegs x) ((s.withRegs x).store n v' rs1 imm) := by
  subst hv
  have hea : (s.withRegs x).ea rs1 imm = s.ea rs1 imm := congrArg (· + imm) ha
  have hcheck : (s.withRegs x).accessCheck .storeAddressMisaligned .storeAccessFault ((s.withRegs x).ea rs1 imm) n =
      s.accessCheck .storeAddressMisaligned .storeAccessFault (s.ea rs1 imm) n := by rw [hea]; rfl
  rcases store_cases s n v' rs1 imm with ⟨st, h, e⟩ | ⟨h, e⟩ <;> rw [e]
  · rw [store_stops v' (hcheck.trans h)]
    exact stop_sameEffect s x st
  · obtain ⟨halign, hdata⟩ := accessCheck_none_iff.1 (hcheck.trans h)
    rw [store_completes v' halign hdata, hea]
    exact ⟨rfl, rfl, rfl, rfl, fun _ => .inl ⟨rfl, rfl⟩⟩

end

/-- An instruction does the same to two states that agree on its source registers and on all but the registers. -/
theorem exec_sameEffect {i : Instr} {s t : State} (x : Vector Word 31)
    (hsrc : ∀ r, r ∈ i.sources → (s.withRegs x).readReg r = s.readReg r) (hexec : exec i s = .next t) :
    ∃ t', exec i (s.withRegs x) = .next t' ∧ SameEffect i.dest s t (s.withRegs x) t' := by
  cases i with
  | add _ a b | sub _ a b | sll _ a b | slt _ a b | sltu _ a b | xor _ a b | srl _ a b | sra _ a b | or _ a b
  | and _ a b =>
    have ha := hsrc a (.head _)
    have hb := hsrc b (.tail _ (.head _))
    cases hexec
    exact ⟨_, rfl, result_sameEffect s x (by rw [ha, hb])⟩
  | addi _ a | slti _ a | sltiu _ a | xori _ a | ori _ a | andi _ a | slli _ a | srli _ a | srai _ a =>
    have ha := hsrc a (.head _)
    cases hexec
    exact ⟨_, rfl, result_sameEffect s x (by rw [ha])⟩
  | lui | auipc => cases hexec; exact ⟨_, rfl, result_sameEffect s x rfl⟩
  | lb _ a | lh _ a | lw _ a | lbu _ a | lhu _ a =>
    cases hexec
    exact ⟨_, rfl, load_sameEffect s x (hsrc a (.head _))⟩
  | sb a b | sh a b | sw a b =>
    have hb := hsrc b (.tail _ (.head _))
    cases hexec
    exact ⟨_, rfl, store_sameEffect s x (hsrc a (.head _)) (by rw [hb])⟩
  | beq a b | bne a b | blt a b | bge a b | bltu a b | bgeu a b =>
    have ha := hsrc a (.head _)
    have hb := hsrc b (.tail _ (.head _))
    cases hexec
    exact ⟨_, rfl, branch_sameEffect s x (by rw [ha, hb])⟩
  | jal => cases hexec; exact ⟨_, rfl, jump_sameEffect s x rfl _⟩
  | jalr _ a v =>
    have ha := hsrc a (.head _)
    cases hexec
    exact ⟨_, rfl, jump_sameEffect s x (by rw [State.jalrTarget, State.jalrTarget, ha]) _⟩

end Sys2Proof.Machine

namespace Sys2Proof

open Machine

/-- Settles O21: the second state is the first with other registers. -/
theorem onlyNamedRegistersReadAndWritten : Obligations.OnlyNamedRegistersReadAndWritten := by
  intro i s s' t hpc hmem hstatus hlaunch hsrc hexec
  have hs' := eq_withRegs hpc hmem hstatus hlaunch
  rw [hs'] at hsrc ⊢
  exact exec_sameEffect s'.x hsrc hexec

end Sys2Proof
end

section
/-! The pseudo-instructions `li` and `call` as the model expands them (R99, log entry 24), and the control-logic excerpt
(R103). Both expansions rest on one fact: the upper and the lower part of a constant add up to it. -/

namespace Sys2Proof.Machine

/-! ## The two parts of a constant -/

/-- The lower part is bits 11 to 0 as a signed number. -/
theorem loPart_toNat (v : Word) :
    (loPart v).toNat = if v.toNat % 4096 < 2048 then v.toNat % 4096 else v.toNat % 4096 + (2 ^ 32 - 4096) := by
  have hlow : (v.extractLsb' 0 12).toNat = v.toNat % 4096 := by simp
  have hsplit : (v.extractLsb' 0 12).msb = decide (2048 ≤ v.toNat % 4096) := by
    rw [BitVec.msb_eq_decide, hlow]
  rw [loPart, BitVec.toNat_signExtend, hsplit, BitVec.toNat_setWidth, hlow]
  by_cases h : v.toNat % 4096 < 2048
  · rw [if_pos h, decide_eq_false (Nat.not_le.2 h)]
    simp only [Bool.false_eq_true, if_false]
    omega
  · rw [if_neg h, decide_eq_true (Nat.not_lt.1 h)]
    simp only [if_true]
    omega

/-- The upper part is the constant rounded to the nearest multiple of 4096. -/
theorem hiPart_toNat (v : Word) : (hiPart v).toNat = (v.toNat + 2048) % 2 ^ 32 / 4096 * 4096 := by
  have hmask := toNat_clear_low_bits (v + 0x800#32) 12
  rw [BitVec.toNat_add] at hmask
  exact hmask

theorem hiPart_add_loPart (v : Word) : hiPart v + loPart v = v := by
  apply BitVec.eq_of_toNat_eq
  rw [BitVec.toNat_add, hiPart_toNat, loPart_toNat]
  have hlt := v.isLt
  split <;> omega

theorem loPart_fits (v : Word) : immFitsI (loPart v) = true := by
  unfold immFitsI loPart
  rw [extractLsb'_signExtend _ (by decide), beq_self_eq_true]

theorem hiPart_fits (v : Word) : immFitsU (hiPart v) = true := by
  refine beq_iff_eq.2 (BitVec.eq_of_toNat_eq ?_)
  rw [BitVec.extractLsb'_toNat, hiPart_toNat]
  simp

/-! ## Executing an expansion -/

theorem execSeq_singleton {i : Instr} {s t : State} (h : exec i s = .next t) : execSeq [i] s = .next t := by
  unfold execSeq
  rw [h]
  rfl

theorem execSeq_pair {i j : Instr} {s t u : State} (hi : exec i s = .next t) (hj : exec j t = .next u) :
    execSeq [i, j] s = .next u := by
  unfold execSeq
  rw [hi]
  exact execSeq_singleton hj

/-- A second write to the same register leaves the second value. -/
theorem State.WritesReg.again {s t u : State} {rd : RegIdx} {v v' : Word} (hst : s.WritesReg t rd v)
    (htu : t.WritesReg u rd v') : s.WritesReg u rd v' := by
  obtain ⟨hreg, hbyte, hmem, hstatus, hlaunch⟩ := hst
  obtain ⟨hreg', hbyte', hmem', hstatus', hlaunch'⟩ := htu
  refine ⟨fun r => ?_, fun a => (hbyte' a).trans (hbyte a), hmem'.trans hmem, hstatus'.trans hstatus,
    hlaunch'.trans hlaunch⟩
  rw [hreg', hreg]
  split <;> rfl

/-- Of x0 nothing is written, so every value is as good. -/
theorem State.WritesReg.of_value_eq {s t : State} {rd : RegIdx} {v v' : Word} (h : s.WritesReg t rd v)
    (hv : rd ≠ 0#5 → v = v') : s.WritesReg t rd v' := by
  refine ⟨fun r => ?_, h.2⟩
  rw [h.1]
  by_cases hr : r = rd ∧ r ≠ 0#5
  · rw [if_pos hr, if_pos hr, hv (hr.1 ▸ hr.2)]
  · rw [if_neg hr, if_neg hr]

theorem result_readReg_same (s : State) {rd : RegIdx} (v : Word) (hrd : rd ≠ 0#5) : (s.result rd v).readReg rd = v := by
  rw [result_readReg, if_pos ⟨rfl, hrd⟩]

/-! ## li -/

section
variable (rd : RegIdx) {v : Word}

theorem expand_li_of_small (hsmall : v = loPart v) : expandPseudo (.li rd v) = [.addi rd 0#5 v] :=
  if_pos (beq_iff_eq.2 hsmall)

theorem expand_li_of_upper (hsmall : v ≠ loPart v) (hupper : loPart v = 0#32) :
    expandPseudo (.li rd v) = [.lui rd (hiPart v)] :=
  (if_neg fun h => hsmall (beq_iff_eq.1 h)).trans (if_pos (beq_iff_eq.2 hupper))

theorem expand_li_of_both (hsmall : v ≠ loPart v) (hupper : loPart v ≠ 0#32) :
    expandPseudo (.li rd v) = [.lui rd (hiPart v), .addi rd rd (loPart v)] :=
  (if_neg fun h => hsmall (beq_iff_eq.1 h)).trans (if_neg fun h => hupper (beq_iff_eq.1 h))

end

/-- Each of the three expansions of `li` can be encoded and leaves the constant. -/
theorem li_loads (s : State) (rd : RegIdx) (v : Word) : (∀ i, i ∈ expandPseudo (.li rd v) → i.wf = true) ∧
    ∃ t, execSeq (expandPseudo (.li rd v)) s = .next t ∧ s.WritesReg t rd v ∧
      t.pc = s.pc + BitVec.ofNat 32 (4 * (expandPseudo (.li rd v)).length) := by
  by_cases hsmall : v = loPart v
  · rw [expand_li_of_small rd hsmall, List.forall_mem_singleton]
    refine ⟨hsmall ▸ loPart_fits v, _, execSeq_singleton (exec_addi rd 0#5 v s), ?_, result_pc ..⟩
    exact (result_writesReg s rd _).of_value_eq fun _ => BitVec.zero_add v
  by_cases hupper : loPart v = 0#32
  · have hall : hiPart v = v := by rw [← BitVec.add_zero (hiPart v), ← hupper, hiPart_add_loPart]
    rw [expand_li_of_upper rd hsmall hupper, List.forall_mem_singleton]
    refine ⟨hiPart_fits v, _, execSeq_singleton (exec_lui s rd _), ?_, result_pc ..⟩
    exact (result_writesReg s rd _).of_value_eq fun _ => hall
  · rw [expand_li_of_both rd hsmall hupper, List.forall_mem_cons, List.forall_mem_singleton]
    refine ⟨⟨hiPart_fits v, loPart_fits v⟩, _, execSeq_pair (exec_lui s rd _) (exec_addi rd rd _ _), ?_, ?_⟩
    · refine ((result_writesReg s rd _).again (result_writesReg _ rd _)).of_value_eq fun hrd => ?_
      rw [result_readReg_same s _ hrd, hiPart_add_loPart]
    · rw [result_pc, result_pc, BitVec.add_assoc]
      rfl

/-! ## call -/

theorem call_reaches (s : State) (off : Word) (halign : Aligned (s.pc + off) 4) :
    ∃ t, execSeq (expandPseudo (.call off)) s = .next t ∧ t.pc = s.pc + off ∧ s.WritesReg t 1#5 (s.pc + 8#32) := by
  have hbase : (s.result 1#5 (s.pc + hiPart off)).readReg 1#5 + loPart off = s.pc + off := by
    rw [result_readReg_same s _ (by decide), BitVec.add_assoc, hiPart_add_loPart]
  have htarget : (s.result 1#5 (s.pc + hiPart off)).jalrTarget 1#5 (loPart off) = s.pc + off := by
    refine jalrTarget_eq ?_
    unfold Aligned at halign
    rw [hbase]
    omega
  have hjalr := exec_jalr (s.result 1#5 (s.pc + hiPart off)) 1#5 1#5 (loPart off)
  rw [htarget, transfer_of_aligned halign, result_pc, BitVec.add_assoc] at hjalr
  exact ⟨_, execSeq_pair (exec_auipc s 1#5 _) hjalr, rfl,
    (result_writesReg s 1#5 _).again (link_writesReg _ 1#5 _ _)⟩

end Sys2Proof.Machine

namespace Sys2Proof

open Machine

/-- Settles O51: one or two instructions, as the parts of the constant require. -/
theorem liLoadsTheConstant : Obligations.LiLoadsTheConstant :=
  fun s rd imm => li_loads s rd imm

/-- Settles O52: AUIPC adds the upper part to the pc and JALR the lower one; an aligned target has bit 0 clear. -/
theorem callReachesTheLabel : Obligations.CallReachesTheLabel :=
  fun s off halign => ⟨by simpa [expandPseudo] using ⟨hiPart_fits off, loPart_fits off⟩, call_reaches s off halign⟩

/-- Settles O53: the five opcodes by evaluation, every other by its inequalities, the ALU by funct3. -/
theorem controlLogicTruthTable : Obligations.ControlLogicTruthTable := by
  refine ⟨rfl, rfl, rfl, rfl, rfl, fun op hop => ?_, fun f3 f7 => ⟨rfl, rfl, ?_⟩⟩
  · simp only [List.mem_cons, not_or] at hop
    simp [mainDecoder, hop]
  · rcases funct3_cases f3 with rfl | rfl | rfl | rfl | rfl | rfl | rfl | rfl
    case inl => by_cases hsub : f7 = 0b0100000#7 <;> simp [aluDecoder, hsub]
    all_goals rfl

end Sys2Proof
end
